-- ==== Sys2Proof/Word.lean ====
section
/-! DEFINITION. The words of the block: a storage slot holds one byte (rule R6), a port carries 16-bit words
(rules R50 and R57). Bit 0 is the least significant bit of each (rule R37). -/

namespace Sys2Proof

/-- One byte: what a slot of DATA holds (rule R6) and what PUSH carries (rule R53). -/
abbrev Byte := BitVec 8

/-- An operation word or a response word of a port (rules R50, R57). -/
abbrev Word := BitVec 16

end Sys2Proof
end

