-- ==== Sys2Proof/Syntax.lean ====
section
/-! DEFINITION. The operations of the block (`30_encoding.md` rule R51 and `opcode_table.json`), one constructor per
row, with their operands; the two ports that carry them; and the response codes that answer them (rule R58). -/

namespace Sys2Proof

/-- The two command ports (`30_encoding.md` §1). The port fixes the context: interrupt or foreground (rule R107). -/
inductive Port where
  /-- PUSH words, from the Interrupt Receiver. -/
  | producer
  /-- Every other operation word, from the foreground. -/
  | consumer
deriving DecidableEq, Repr

/-- The BLK operand of INIT and CTRL (rule R52). -/
inductive Blk where
  /-- BLK = 00: neither `block` nor `noblock`. -/
  | neither
  /-- BLK = 01: `block`. -/
  | block
  /-- BLK = 10: `noblock`. -/
  | noblock
  /-- BLK = 11: `block,noblock`, the conflicting pair that is answered INVALID (rule R95). -/
  | both
deriving DecidableEq, Repr

/-- The operations (rule R51). -/
inductive Instr where
  /-- PUSH b (rule R66). -/
  | push (b : Byte)
  /-- POP (rule R72). -/
  | pop
  /-- ISEMPTY (rule R73). -/
  | isempty
  /-- WAIT (rule R77). -/
  | wait
  /-- GET (rule R85). -/
  | get
  /-- INIT blk (rules R90, R95). -/
  | init (blk : Blk)
  /-- CTRL blk (rules R92, R95). -/
  | ctrl (blk : Blk)
  /-- CLOSE (rule R94). -/
  | close
  /-- STATUS (rule R74). -/
  | status
deriving DecidableEq, Repr

/-- The response codes 0 to 6 (rule R58); 7 to 15 are never produced (U15), so they have no constructor. -/
inductive Rc where
  | ok
  | empty
  | dropped
  | wouldBlock
  | invalid
  | illegal
  | rxOff
deriving DecidableEq, Repr

end Sys2Proof
end

