-- ==== Sys2Proof/WellFormed.lean ====
section
/-! DEFINITION. When an operation may stand where it is issued. The operands themselves cannot be ill formed (a byte
is 8 bits, BLK is one of four values, all of them encodable), so the one check is port legality (rules R55, R107). -/

namespace Sys2Proof

/-- The port that carries the operation (rule R51, column "port"). -/
def Instr.port : Instr → Port
  | .push _ => .producer
  | .pop => .consumer
  | .isempty => .consumer
  | .wait => .consumer
  | .get => .consumer
  | .init _ => .consumer
  | .ctrl _ => .consumer
  | .close => .consumer
  | .status => .consumer

/-- The operation is well formed on port `p`: its port is `p` (rule R55). -/
abbrev Instr.WellFormedOn (p : Port) (i : Instr) : Prop := i.port = p

end Sys2Proof
end

