-- ==== Sys2Proof/Decode.lean ====
section
/-! DEFINITION. Operation words (`30_encoding.md` rules R50 to R56): the decoder, total on all 16-bit words of either
port and rejecting by name, the encoder, and the response word (rule R57). -/

namespace Sys2Proof

/-! ## The fields of an operation word (rule R50) -/

/-- OP, bits 15:12. -/
def Word.op (w : Word) : BitVec 4 := w.extractLsb' 12 4

/-- BLK, bits 11:10. -/
def Word.blk (w : Word) : BitVec 2 := w.extractLsb' 10 2

/-- RSV, bits 9:8. -/
def Word.rsv (w : Word) : BitVec 2 := w.extractLsb' 8 2

/-- DATA, bits 7:0. -/
def Word.data (w : Word) : Byte := w.extractLsb' 0 8

/-- The word with these fields, OP highest. -/
def Word.ofFields (op : BitVec 4) (blk rsv : BitVec 2) (data : Byte) : Word := op ++ blk ++ rsv ++ data

/-- The BLK operand a BLK field stands for (rule R52). -/
def Blk.ofBits (b : BitVec 2) : Blk :=
  if b = 0b00#2 then .neither
  else if b = 0b01#2 then .block
  else if b = 0b10#2 then .noblock
  else .both

/-- The BLK field of a BLK operand (rule R52). -/
def Blk.bits : Blk → BitVec 2
  | .neither => 0b00#2
  | .block => 0b01#2
  | .noblock => 0b10#2
  | .both => 0b11#2

/-! ## The opcode table (rules R51 and R54) -/

/-- One row of rule R51's table, with rule R54's unused bits. -/
structure OpRow where
  /-- The OP code. -/
  op : BitVec 4
  /-- The port that may carry it. -/
  port : Port
  /-- Rule R54: the bits that must be 0. -/
  unused : Word
  /-- The operation the word stands for. -/
  build : Word → Instr

/-- The defined OP codes; 0x0 and 0xA to 0xF are reserved (rule R51). -/
def opTable : List OpRow := [
  ⟨0x1#4, .producer, 0x0F00#16, fun w => .push w.data⟩,
  ⟨0x2#4, .consumer, 0x0FFF#16, fun _ => .pop⟩,
  ⟨0x3#4, .consumer, 0x0FFF#16, fun _ => .isempty⟩,
  ⟨0x4#4, .consumer, 0x0FFF#16, fun _ => .wait⟩,
  ⟨0x5#4, .consumer, 0x0FFF#16, fun _ => .get⟩,
  ⟨0x6#4, .consumer, 0x03FF#16, fun w => .init (Blk.ofBits w.blk)⟩,
  ⟨0x7#4, .consumer, 0x03FF#16, fun w => .ctrl (Blk.ofBits w.blk)⟩,
  ⟨0x8#4, .consumer, 0x0FFF#16, fun _ => .close⟩,
  ⟨0x9#4, .consumer, 0x0FFF#16, fun _ => .status⟩]

/-- The row of an OP code, none for a reserved one. -/
def opRow (op : BitVec 4) : Option OpRow := opTable.find? (fun r => r.op == op)

/-- Why a word is ILLEGAL (rule R61). -/
inductive IllegalWord where
  /-- Rule R56 step 1. -/
  | reservedOp
  /-- Rule R56 step 2. -/
  | wrongPort
  /-- Rule R56 step 3. -/
  | unusedField
deriving DecidableEq, Repr

/-- What decoding a word gives. -/
inductive Decoded where
  /-- The word is ILLEGAL, and which check failed first. -/
  | illegal (why : IllegalWord)
  /-- The word is this operation; one with BLK = 11 goes on to its rule, which answers INVALID (rule R56 step 4). -/
  | instr (i : Instr)
deriving DecidableEq, Repr

/-- Decode a word that arrives on port `p`, in the order of rule R56. -/
def decode (p : Port) (w : Word) : Decoded :=
  match opRow w.op with
  | none => .illegal .reservedOp
  | some r =>
    if r.port ≠ p then .illegal .wrongPort
    else if w &&& r.unused ≠ 0#16 then .illegal .unusedField
    else .instr (r.build w)

/-! ## The encoder (rule R63's table of words) -/

/-- The word of an operation. -/
def encode : Instr → Word
  | .push b => Word.ofFields 0x1#4 0b00#2 0b00#2 b
  | .pop => Word.ofFields 0x2#4 0b00#2 0b00#2 0x00#8
  | .isempty => Word.ofFields 0x3#4 0b00#2 0b00#2 0x00#8
  | .wait => Word.ofFields 0x4#4 0b00#2 0b00#2 0x00#8
  | .get => Word.ofFields 0x5#4 0b00#2 0b00#2 0x00#8
  | .init blk => Word.ofFields 0x6#4 blk.bits 0b00#2 0x00#8
  | .ctrl blk => Word.ofFields 0x7#4 blk.bits 0b00#2 0x00#8
  | .close => Word.ofFields 0x8#4 0b00#2 0b00#2 0x00#8
  | .status => Word.ofFields 0x9#4 0b00#2 0b00#2 0x00#8

/-! ## The response word -/

/-- The 4-bit code of a response (rule R58). -/
def Rc.code : Rc → BitVec 4
  | .ok => 0#4
  | .empty => 1#4
  | .dropped => 2#4
  | .wouldBlock => 3#4
  | .invalid => 4#4
  | .illegal => 5#4
  | .rxOff => 6#4

/-- The response word, RC in bits 15:12, 0 in bits 11:8, RDATA in bits 7:0 (rule R57). -/
def responseWord (rc : Rc) (d : Byte) : Word := rc.code ++ 0#4 ++ d

/-! ## The opcode table's words, as the host numbers them -/

/-- The port on which a word is legal: the one its OP code names, the consumer port for a reserved OP. -/
def wordPort (w : Word) : Port :=
  match opRow w.op with
  | none => .consumer
  | some r => r.port

/-- The operation the decoder reads from an instruction of the opcode table whose bits are `w`: one 16-bit word
(rule R50), issued on the port its OP code names; bits above `nbits` are 0. -/
def decodeTableWord (nbits w : Nat) : Option Instr :=
  if nbits ≤ 16 then
    match decode (wordPort (BitVec.ofNat 16 (w % 2 ^ nbits))) (BitVec.ofNat 16 (w % 2 ^ nbits)) with
    | .illegal _ => none
    | .instr i => some i
  else none

end Sys2Proof
end

