-- ==== Sys2Proof/Config.lean ====
section
/-! DEFINITION. The implementation parameters of `00_scope.md` §5 (rules R5 to R10) and the assumptions on the
surroundings that the spec tells a model to check (rules R39, R47, R108, R121). They are configuration, not state
(`10_state.md`): the machine carries them unchanged. -/

namespace Sys2Proof

/-- BLOCK_DEFAULT of rule R9, for the machine the host starts: the source states no default and the spec leaves the
parameter OPEN (decision D4), so this constant has no body and no proof can see which value it is. -/
opaque Config.openBlockDefault : Bool

/-- Why a configuration is refused. -/
inductive ConfigProblem where
  /-- C < 3 (rule R5, U3). -/
  | capacity
  /-- RESET_INDEX outside [1, C-1] (rule R8). -/
  | resetIndex
  /-- Not exactly one producer and one consumer (rules R108 and R121, U8). -/
  | agents
  /-- Index accesses that are not single-copy atomic (rules R39 and R120, U10). -/
  | indexAccess
  /-- Memory accesses that the target reorders (rule R47, U11). -/
  | reordering
deriving DecidableEq, Repr

/-- The parameters of one block. -/
structure Config where
  /-- C, the number of slots (rule R5). -/
  capacity : Nat
  /-- RESET_INDEX, what reset and INIT place in HEAD and TAIL (rule R8). -/
  resetIndex : Nat
  /-- BLOCK_DEFAULT, what INIT with BLK = 00 places in CTRL.BLOCK (rule R9). -/
  blockDefault : Bool
  /-- ATOMIC_SLEEP, whether check and sleep are one step (rule R10). -/
  atomicSleep : Bool
  /-- How many producers push into this block (rule R121: exactly one). -/
  producers : Nat := 1
  /-- How many consumers pop from this block (rule R121: exactly one). -/
  consumers : Nat := 1
  /-- HEAD and TAIL are read and written as single indivisible accesses (rules R39, R120). -/
  atomicIndex : Bool := true
  /-- The target keeps the order of accesses (rules R42, R47). -/
  inOrder : Bool := true
deriving DecidableEq, Repr

/-- The first reason to refuse the configuration, if there is one. -/
def Config.problem (c : Config) : Option ConfigProblem :=
  if c.capacity < 3 then some .capacity
  else if c.resetIndex < 1 ∨ c.capacity ≤ c.resetIndex then some .resetIndex
  else if c.producers ≠ 1 ∨ c.consumers ≠ 1 then some .agents
  else if c.atomicIndex = false then some .indexAccess
  else if c.inOrder = false then some .reordering
  else none

/-- The configuration is one the spec covers. -/
abbrev Config.WellFormed (c : Config) : Prop := c.problem = none

/-- IDX_W, the number of bits of C-1 (rule R7). -/
def Config.idxW (c : Config) : Nat := Nat.log2 (c.capacity - 1) + 1

/-- The spec's default block: C = 32 (rule R5), RESET_INDEX = 1 (rule R8), ATOMIC_SLEEP = true (rule R10), and
BLOCK_DEFAULT open (rule R9). -/
def Config.default : Config where
  capacity := 32
  resetIndex := 1
  blockDefault := Config.openBlockDefault
  atomicSleep := true

end Sys2Proof
end

