-- ==== Sys2Proof/Machine/State.lean ====
section
/-! DEFINITION. The state of one block (`10_state.md`: DATA, HEAD, TAIL, CTRL, SYNC and PEND), with the model's own
fields beside it: the configuration, the schedule of the moves still to come, and the response word of the last
transition. Also the named reasons to stop, and the state after reset (rule R33). -/

namespace Sys2Proof.Machine

/-- SYNC, the consumer's wait state (rule R26). -/
inductive Sync where
  /-- No operation in progress. -/
  | run
  /-- The check found the buffer empty; the sleep has not been entered (ATOMIC_SLEEP = false only). -/
  | presleep
  /-- The low-power wait state (rule R109). -/
  | sleep
  /-- A wake event ended the sleep; the re-check has not run. -/
  | woken
deriving DecidableEq, Repr

/-- PEND, the operation that is waiting (rule R27). -/
inductive Pend where
  | none
  | wait
  | get
deriving DecidableEq, Repr

/-- One transition that some agent may take next (rule R4, rule R63's lines). -/
inductive Event where
  /-- A line `P:` or `C:`, an operation word on a port. -/
  | word (p : Port) (w : Word)
  /-- `E: RX b`, a byte arrives on this line (rule R65). -/
  | rx (b : Byte)
  /-- `E: IRQX`, an interrupt of another enabled line (rule R99). -/
  | irqx
  /-- `E: RESET` (rule R115). -/
  | reset
  /-- `C: (sleep)`, the consumer's sleep-entry step (rule R79). -/
  | sleep
  /-- `C: (recheck)`, the consumer's re-check step (rule R82). -/
  | recheck
deriving DecidableEq, Repr

/-- A response word and the port it is given on (rule R57). -/
structure Response where
  port : Port
  word : Word
deriving DecidableEq, Repr

/-- The storage DATA (rule R13): the slots that hold a value, each once, by rising index. An unlisted slot holds no
value (rule R29). -/
abbrev Memory := List Host.Cell

/-- The states the spec calls a fault. Raised by the guard and the shared operations of Machine/Ops.lean; each is
safe, for the machine stops where the rules give it no step, and none is reachable. -/
inductive Fault where
  /-- INDEX_RANGE (rule R17): HEAD or TAIL outside [1, C-1]. Raised by every transition. Safe. -/
  | indexRange
  /-- A read of a slot that holds no value or stands outside the unread range (rule R29). Raised by POP and by the
  completion of GET. Safe. -/
  | slotWithoutValue
  /-- A write of a slot outside [1, C-1] (rule R41). Raised by PUSH. Safe. -/
  | slotOutOfRange
  /-- A completion with PEND = NONE, against rule R27. Raised by (recheck). Safe. -/
  | nothingPending
deriving DecidableEq, Repr

/-- Why a step has no meaning. Each is safe: the machine stops where the spec has no move. -/
inductive Refusal where
  /-- Raised by an arm of exec whose operation has no meaning yet (none in this model). Safe. -/
  | notModelled (mnemonic : String)
  /-- The configuration is one a model must refuse (rules R5, R108, R121, U3, U8, U10, U11). Raised by every
  transition. Safe. -/
  | configuration (why : ConfigProblem)
  /-- A consumer word while SYNC is not RUN: the port accepts no word (rule R76, U12). Raised by every consumer
  operation. Safe. -/
  | consumerHeld
  /-- The schedule names (sleep) or (recheck) in a state that does not enable it (rules R79, R82). Raised by those
  two steps. Safe. -/
  | stepNotEnabled
deriving DecidableEq, Repr

/-- One block. -/
structure State where
  /-- The model's own: the parameters, which no transition changes. -/
  cfg : Config
  /-- DATA (rule R13). -/
  data : Memory
  /-- HEAD, the slot the last accepted PUSH wrote (rule R15). -/
  head : Nat
  /-- TAIL, the slot the last POP or GET read (rule R16). -/
  tail : Nat
  /-- CTRL: RX_EN in bit 0, BLOCK in bit 1, the rest reserved (rule R19). -/
  ctrl : BitVec 8
  /-- SYNC (rule R26). -/
  sync : Sync
  /-- PEND (rule R27). -/
  pend : Pend
  /-- The model's own: the transitions still to come, next first; any order is some schedule (rule R103). -/
  inputs : List Event
  /-- The model's own: the response the last transition gave, none if it gave none. -/
  resp : Option Response
deriving DecidableEq, Repr

/-- The state after power-on reset of a block with the parameters `c` (rule R33), with no transition scheduled. -/
def State.powerOn (c : Config) : State where
  cfg := c
  data := []
  head := c.resetIndex
  tail := c.resetIndex
  ctrl := 0#8
  sync := .run
  pend := .none
  inputs := []
  resp := none

/-- The machine right after reset, with the spec's default parameters. -/
def State.reset : State := State.powerOn Config.default

end Sys2Proof.Machine
end

