-- ==== Sys2Proof/Machine/Flags.lean ====
section
/-! DEFINITION. The index step, the derived flags EMPTY, FULL and COUNT (`10_state.md` §4, `20_memory.md` §1), the
fields of CTRL (rule R19) and the status byte (rule R60). -/

namespace Sys2Proof.Machine

/-- `next`, the decrement-and-wrap index step for a buffer of `c` slots (rule R34). -/
def nextIndex (c i : Nat) : Nat := if 2 ≤ i then i - 1 else c - 1

/-- `next^k` (rule R28). -/
def nextIter (c : Nat) : Nat → Nat → Nat
  | 0, i => i
  | k + 1, i => nextIter c k (nextIndex c i)

/-- An index HEAD and TAIL may hold: [1, C-1] (rule R17). -/
abbrev legalIndex (c i : Nat) : Prop := 1 ≤ i ∧ i < c

/-- How many steps of `next` lead from index `a` to index `b`: (a - b) mod (C-1) on the integers (rule R24). -/
def indexDistance (c a b : Nat) : Nat := (((a : Int) - (b : Int)) % ((c : Int) - 1)).toNat

/-- HEAD and TAIL are in range (rule R17). -/
abbrev State.indexOk (s : State) : Prop := legalIndex s.cfg.capacity s.head ∧ legalIndex s.cfg.capacity s.tail

/-- EMPTY (rule R22). -/
def State.empty (s : State) : Bool := s.head == s.tail

/-- FULL (rule R23). -/
def State.full (s : State) : Bool := nextIndex s.cfg.capacity s.head == s.tail

/-- COUNT, the number of unread bytes (rule R24). -/
def State.count (s : State) : Nat := indexDistance s.cfg.capacity s.tail s.head

/-- Slot `i` is in the unread range, DATA[next^1(TAIL)] to DATA[next^COUNT(TAIL)] (rule R28). -/
abbrev State.unread (s : State) (i : Nat) : Prop :=
  legalIndex s.cfg.capacity i ∧ 1 ≤ indexDistance s.cfg.capacity s.tail i
    ∧ indexDistance s.cfg.capacity s.tail i ≤ s.count

/-- CTRL.RX_EN, bit 0 (rules R19, R20). -/
def State.rxEn (s : State) : Bool := s.ctrl.getLsbD 0

/-- CTRL.BLOCK, bit 1 (rules R19, R21). -/
def State.block (s : State) : Bool := s.ctrl.getLsbD 1

/-- CTRL with RX_EN set (rule R20: nothing but reset clears it). -/
def ctrlEnableRx (ctrl : BitVec 8) : BitVec 8 := ctrl ||| 0x01#8

/-- CTRL with BLOCK at `b` (rule R21), the other bits as they are. -/
def ctrlSetBlock (ctrl : BitVec 8) (b : Bool) : BitVec 8 := if b then ctrl ||| 0x02#8 else ctrl &&& 0xFD#8

/-- A flag as one bit. -/
def flagBit (b : Bool) : BitVec 1 := BitVec.ofBool b

/-- The status byte, 0b0000, BLOCK, RX_EN, FULL, EMPTY from the high bits down (rule R60). -/
def State.statusByte (s : State) : Byte :=
  0#4 ++ flagBit s.block ++ flagBit s.rxEn ++ flagBit s.full ++ flagBit s.empty

/-- zext_8(EMPTY), the byte ISEMPTY returns (rule R73). -/
def State.emptyByte (s : State) : Byte := (flagBit s.empty).setWidth 8

end Sys2Proof.Machine
end

