-- ==== Sys2Proof/Machine/Operands.lean ====
section
/-! DEFINITION. What the BLK operand of INIT and CTRL says of CTRL.BLOCK (rule R52). The only other operand of the
block is PUSH's byte, stored unchanged (rule R53). -/

namespace Sys2Proof.Machine

/-- The value INIT gives CTRL.BLOCK, none for the conflicting pair (rules R52, R90, R95). -/
def initBlock (c : Config) : Blk → Option Bool
  | .neither => some c.blockDefault
  | .block => some true
  | .noblock => some false
  | .both => none

/-- The value CTRL gives CTRL.BLOCK when it stands at `now`, none for the conflicting pair (rules R52, R92, R95). -/
def ctrlBlock (now : Bool) : Blk → Option Bool
  | .neither => some now
  | .block => some true
  | .noblock => some false
  | .both => none

end Sys2Proof.Machine
end

