-- ==== Sys2Proof/Machine/Ops.lean ====
section
/-! DEFINITION. The shared operations: DATA, the registers, the guard every transition passes, responses (the block's
only way to report: it has no traps, rule R96), the wake event that is an interrupt's whole effect on the consumer
(rules R81, R104), and the synchronizer's check and completion (rules R77, R84, R86). -/

namespace Sys2Proof.Machine

/-! ## DATA as a list of cells -/

/-- The canonical form: indices strictly rising. (An unlisted slot has no value, so no entry can equal it.) -/
def Memory.wf (m : Memory) : Bool := decide (m.Pairwise (fun x y => x.1 < y.1))

/-- The value of slot `a`, none where nothing was written (rule R29). -/
def Memory.read (m : Memory) (a : Nat) : Option Byte :=
  match m with
  | [] => none
  | (k, v) :: rest => if k = a then some v else Memory.read rest a

/-- The storage with slot `a` at `v`. -/
def Memory.write (m : Memory) (a : Nat) (v : Byte) : Memory :=
  match m with
  | [] => [(a, v)]
  | (k, u) :: rest =>
    if a < k then (a, v) :: (k, u) :: rest
    else if a = k then (a, v) :: rest
    else (k, u) :: Memory.write rest a v

/-! ## Register writes -/

/-- DATA <- v. -/
def State.setData (s : State) (v : Memory) : State := { s with data := v }

/-- HEAD <- v. -/
def State.setHead (s : State) (v : Nat) : State := { s with head := v }

/-- TAIL <- v. -/
def State.setTail (s : State) (v : Nat) : State := { s with tail := v }

/-- CTRL <- v. -/
def State.setCtrl (s : State) (v : BitVec 8) : State := { s with ctrl := v }

/-- SYNC <- v. -/
def State.setSync (s : State) (v : Sync) : State := { s with sync := v }

/-- PEND <- v. -/
def State.setPend (s : State) (v : Pend) : State := { s with pend := v }

/-- The transitions still to come. -/
def State.setInputs (s : State) (v : List Event) : State := { s with inputs := v }

/-- The response of this transition. -/
def State.setResp (s : State) (v : Option Response) : State := { s with resp := v }

/-! ## The guard -/

/-- Every transition: a configuration outside the spec is refused (rules R5, R108, R121), and a state with an index
out of range is the fault INDEX_RANGE and gets no step (rule R17). -/
def guarded (s : State) (k : State → Host.Outcome State Fault Refusal) : Host.Outcome State Fault Refusal :=
  match s.cfg.problem with
  | some why => .refused (.configuration why)
  | none => if s.indexOk then k s else .fault .indexRange

/-- A transition that answers a word on port `p`: the consumer port accepts one only when SYNC = RUN (rule R76); the
producer port always does (rule R70). -/
def accepted (p : Port) (s : State) (k : State → Host.Outcome State Fault Refusal) : Host.Outcome State Fault Refusal :=
  guarded s fun s => if p = .consumer ∧ s.sync ≠ .run then .refused .consumerHeld else k s

/-! ## Responses and wake events -/

/-- respond(rc, d) on port `p` (rule R57). -/
def State.respond (s : State) (p : Port) (rc : Rc) (d : Byte) : State := s.setResp (some ⟨p, responseWord rc d⟩)

/-- The transition gives no response. -/
def State.silent (s : State) : State := s.setResp none

/-- What a wake event makes of SYNC: SLEEP becomes WOKEN, and in the other states nothing is latched (rule R81). -/
def Sync.wake : Sync → Sync
  | .run => .run
  | .presleep => .presleep
  | .sleep => .woken
  | .woken => .woken

/-- wake(), an interrupt reaches the synchronizer (rule R81). -/
def State.wake (s : State) : State := s.setSync s.sync.wake

/-! ## Access to DATA -/

/-- MemRead(i, 1): the byte of slot `i`. A slot outside the unread range has no value to read (rule R29). -/
def State.readSlot (s : State) (i : Nat) : Option Byte := if s.unread i then Memory.read s.data i else none

/-- DATA[i] <- v, then the rest of the transition. -/
def storeSlot (s : State) (i : Nat) (v : Byte) (k : State → Host.Outcome State Fault Refusal) :
    Host.Outcome State Fault Refusal :=
  if legalIndex s.cfg.capacity i then k (s.setData (Memory.write s.data i v)) else .fault .slotOutOfRange

/-- Pop the oldest byte: TAIL advances, and the byte at the new TAIL is returned (rules R16, R72, R86). -/
def takeByte (s : State) (k : Byte → State → Host.Outcome State Fault Refusal) : Host.Outcome State Fault Refusal :=
  match s.readSlot (nextIndex s.cfg.capacity s.tail) with
  | some b => k b (s.setTail (nextIndex s.cfg.capacity s.tail))
  | none => .fault .slotWithoutValue

/-! ## The synchronizer -/

/-- The consumer is no longer waiting: SYNC <- RUN, PEND <- NONE. -/
def State.endWait (s : State) : State := (s.setSync .run).setPend .none

/-- complete(WAIT) (rule R84) and complete(GET) (rule R86). -/
def complete (op : Pend) (s : State) : Host.Outcome State Fault Refusal :=
  match op with
  | .wait => .next (s.endWait.respond .consumer .ok 0x00#8)
  | .get => takeByte s fun b s => .next (s.endWait.respond .consumer .ok b)
  | .none => .fault .nothingPending

/-- The state a wait goes on in after a check that found the buffer empty: SLEEP, or PRESLEEP when check and sleep
are two steps (rules R78, R79). -/
def sleepState (c : Config) : Sync := if c.atomicSleep then .sleep else .presleep

/-- check(op) (rule R77). -/
def check (op : Pend) (s : State) : Host.Outcome State Fault Refusal :=
  if s.empty = false then complete op s
  else if s.block = false then .next (s.respond .consumer .wouldBlock 0x00#8)
  else .next (((s.setPend op).setSync (sleepState s.cfg)).silent)

end Sys2Proof.Machine
end

