-- ==== Sys2Proof/Machine/Consumer.lean ====
section
/-! DEFINITION. The consumer's operations that never wait: POP, ISEMPTY, STATUS (`41_consumer.md`). -/

namespace Sys2Proof.Machine

/-- POP (rule R72). -/
def execPop (s : State) : Host.Outcome State Fault Refusal :=
  accepted .consumer s fun s =>
    if s.empty then .next (s.respond .consumer .empty 0x00#8)
    else takeByte s fun b s => .next (s.respond .consumer .ok b)

/-- ISEMPTY (rule R73). -/
def execIsempty (s : State) : Host.Outcome State Fault Refusal :=
  accepted .consumer s fun s => .next (s.respond .consumer .ok s.emptyByte)

/-- STATUS, every field from the same state (rule R74). -/
def execStatus (s : State) : Host.Outcome State Fault Refusal :=
  accepted .consumer s fun s => .next (s.respond .consumer .ok s.statusByte)

end Sys2Proof.Machine
end

