-- ==== Sys2Proof/Machine/Control.lean ====
section
/-! DEFINITION. The control operations INIT, CTRL and CLOSE (`43_control.md`). -/

namespace Sys2Proof.Machine

/-- INIT blk: both indices at RESET_INDEX, BLOCK from the operand, and RX_EN on, in one transition (rules R90, R91);
BLK = 11 is INVALID and changes nothing (rule R95). -/
def execInit (blk : Blk) (s : State) : Host.Outcome State Fault Refusal :=
  accepted .consumer s fun s =>
    match initBlock s.cfg blk with
    | some b =>
      .next ((((s.setHead s.cfg.resetIndex).setTail s.cfg.resetIndex).setCtrl
        (ctrlEnableRx (ctrlSetBlock s.ctrl b))).respond .consumer .ok 0x00#8)
    | none => .next (s.respond .consumer .invalid 0x00#8)

/-- CTRL blk: BLOCK alone (rules R92, R93); BLK = 11 is INVALID and changes nothing (rule R95). -/
def execCtrl (blk : Blk) (s : State) : Host.Outcome State Fault Refusal :=
  accepted .consumer s fun s =>
    match ctrlBlock s.block blk with
    | some b => .next ((s.setCtrl (ctrlSetBlock s.ctrl b)).respond .consumer .ok 0x00#8)
    | none => .next (s.respond .consumer .invalid 0x00#8)

/-- CLOSE, advisory: a response and nothing else (rule R94). -/
def execClose (s : State) : Host.Outcome State Fault Refusal :=
  accepted .consumer s fun s => .next (s.respond .consumer .ok 0x00#8)

end Sys2Proof.Machine
end

