-- ==== Sys2Proof/Machine/Producer.lean ====
section
/-! DEFINITION. The producer's operation, PUSH (`40_producer.md`). -/

namespace Sys2Proof.Machine

/-- PUSH b (rules R66 to R70). -/
def execPush (b : Byte) (s : State) : Host.Outcome State Fault Refusal :=
  accepted .producer s fun s =>
    if s.rxEn = false then .next (s.respond .producer .rxOff 0x00#8)
    else if s.full then .next ((s.respond .producer .dropped 0x00#8).wake)
    else storeSlot s (nextIndex s.cfg.capacity s.head) b fun s =>
      .next (((s.setHead (nextIndex s.cfg.capacity s.head)).respond .producer .ok 0x00#8).wake)

end Sys2Proof.Machine
end

