-- ==== Sys2Proof/Machine/Synchronizer.lean ====
section
/-! DEFINITION. The blocking-wait synchronizer (`42_sync.md`): WAIT, GET, and the consumer's own steps (sleep) and
(recheck), which have no word. -/

namespace Sys2Proof.Machine

/-- WAIT (rule R77). -/
def execWait (s : State) : Host.Outcome State Fault Refusal :=
  accepted .consumer s fun s => check .wait s

/-- GET (rule R85). -/
def execGet (s : State) : Host.Outcome State Fault Refusal :=
  accepted .consumer s fun s => check .get s

/-- (sleep), enabled only in PRESLEEP; the buffer is not read again (rule R79). -/
def sleepStep (s : State) : Host.Outcome State Fault Refusal :=
  guarded s fun s =>
    if s.sync = .presleep then .next ((s.setSync .sleep).silent) else .refused .stepNotEnabled

/-- (recheck), enabled only in WOKEN; it tests emptiness alone (rules R82, R83). -/
def recheckStep (s : State) : Host.Outcome State Fault Refusal :=
  guarded s fun s =>
    if s.sync = .woken then
      if s.empty = false then complete s.pend s
      else .next ((s.setSync (sleepState s.cfg)).silent)
    else .refused .stepNotEnabled

end Sys2Proof.Machine
end

