-- ==== Sys2Proof/Machine/Dispatch.lean ====
section
/-! DEFINITION. One arm per operation. -/

namespace Sys2Proof.Machine

def exec (i : Instr) (s : State) : Host.Outcome State Fault Refusal :=
  match i with
  | .push b => Sys2Proof.Machine.execPush b s
  | .pop => Sys2Proof.Machine.execPop s
  | .isempty => Sys2Proof.Machine.execIsempty s
  | .wait => Sys2Proof.Machine.execWait s
  | .get => Sys2Proof.Machine.execGet s
  | .init blk => Sys2Proof.Machine.execInit blk s
  | .ctrl blk => Sys2Proof.Machine.execCtrl blk s
  | .close => Sys2Proof.Machine.execClose s
  | .status => Sys2Proof.Machine.execStatus s

end Sys2Proof.Machine
end

