-- ==== Sys2Proof/Machine/Environment.lean ====
section
/-! DEFINITION. The transitions of the environment and of reset that carry no operation word: an interrupt of another
line (rule R99), a reset (rule R115), and a step in which no agent moves. -/

namespace Sys2Proof.Machine

/-- IRQX: a wake event and nothing else (rule R99). -/
def irqxEvent (s : State) : Host.Outcome State Fault Refusal :=
  guarded s fun s => .next s.silent.wake

/-- RESET: every piece of state at its power-on value; an operation in progress gets no response (rules R115, R116).
The parameters and the schedule are not the block's state. -/
def resetEvent (s : State) : Host.Outcome State Fault Refusal :=
  guarded s fun s => .next ((State.powerOn s.cfg).setInputs s.inputs)

/-- Nothing is scheduled: no agent moves, and no response is given (DESIGN CHOICE, notes/assumptions/3.md). -/
def idleStep (s : State) : Host.Outcome State Fault Refusal :=
  guarded s fun s => .next s.silent

end Sys2Proof.Machine
end

