-- ==== Sys2Proof/Machine/Deliver.lean ====
section
/-! DEFINITION. How a scheduled transition is taken: a word on a port is decoded and answered (rule R56), an arriving
byte is the PUSH of that byte (rule R65), and the other transitions are their own. -/

namespace Sys2Proof.Machine

/-- A word arrives on port `p`: an ILLEGAL word is answered so and does nothing else (rules R56, R61), any other is
its operation. -/
def deliverWord (p : Port) (w : Word) (s : State) : Host.Outcome State Fault Refusal :=
  match decode p w with
  | .illegal _ => accepted p s fun s => .next (s.respond p .illegal 0x00#8)
  | .instr i => exec i s

/-- Take one transition. -/
def deliver (e : Event) (s : State) : Host.Outcome State Fault Refusal :=
  match e with
  | .word p w => deliverWord p w s
  | .rx b => deliverWord .producer (encode (.push b)) s
  | .irqx => irqxEvent s
  | .reset => resetEvent s
  | .sleep => sleepStep s
  | .recheck => recheckStep s

/-- The state with the word `w` as its next transition, on the port its OP code names. A consumer word is accepted
only when SYNC = RUN (rule R76), so placing one also ends a wait; a producer word needs nothing else. -/
def placeWord (s : State) (w : Word) : State :=
  match wordPort w with
  | .producer => s.setInputs (.word .producer w :: s.inputs)
  | .consumer => (s.endWait).setInputs (.word .consumer w :: s.inputs)

end Sys2Proof.Machine
end

