-- ==== Sys2Proof/Machine/Step.lean ====
section
/-! DEFINITION. One step: the next scheduled transition, whichever agent's it is (rules R42, R103). The block has no
program counter and fetches nothing (rules R30, R49). -/

namespace Sys2Proof.Machine

/-- Take the transition the schedule names next and drop it from the schedule; with none scheduled, no agent moves. -/
def step (s : State) : Host.Outcome State Fault Refusal :=
  match s.inputs with
  | [] => idleStep s
  | e :: rest => deliver e (s.setInputs rest)

/-- `s` with the instruction whose bits are `w` issued as its very next transition. -/
def State.withFetchWord (s : State) (nbits w : Nat) : State := placeWord s (BitVec.ofNat 16 (w % 2 ^ nbits))

end Sys2Proof.Machine
end

