-- ==== Sys2Proof/Safety.lean ====
section
/-! DEFINITION. The terms claims about the block use: the states it has a step from, the invariant its states keep,
which moves are enabled, the unread bytes as a list, what the ports can see, and the history of a run that the FIFO
law is about. -/

namespace Sys2Proof.Machine

/-! ## States -/

/-- The state has a step: its configuration is one the spec covers, and HEAD and TAIL are in range (rule R17). -/
structure State.Ready (s : State) : Prop where
  config : s.cfg.WellFormed
  index : s.indexOk

/-- The block is quiescent (rule R129): it has a step and SYNC = RUN, so the consumer port accepts a word. -/
structure State.Quiescent (s : State) : Prop extends s.Ready where
  run : s.sync = .run

/-- Every unread slot holds a value (rule R28). -/
def State.UnreadWritten (s : State) : Prop := ∀ i, s.unread i → ∃ b, Memory.read s.data i = some b

/-- What every reachable state satisfies. -/
structure State.Inv (s : State) : Prop extends s.Ready where
  /-- DATA is in canonical form. -/
  canonical : Memory.wf s.data = true
  /-- Only slots in [1, C-1] were ever written (rules R14, R41). -/
  slots : ∀ a b, Memory.read s.data a = some b → legalIndex s.cfg.capacity a
  /-- Every unread slot holds a value (rule R28). -/
  written : s.UnreadWritten
  /-- CTRL[7:2] is 0 (rule R19). -/
  reserved : s.ctrl &&& 0xFC#8 = 0#8
  /-- PEND is NONE exactly when SYNC = RUN (rule R27). -/
  pending : s.pend = .none ↔ s.sync = .run
  /-- PRESLEEP exists only when check and sleep are two steps (rule R26). -/
  twoSteps : s.sync = .presleep → s.cfg.atomicSleep = false
  /-- BLOCK = 1 throughout a wait (rule R83). -/
  blocking : s.sync ≠ .run → s.block = true
  /-- With check and sleep in one step, the consumer never sleeps on a buffer that holds data (rule R78). -/
  asleep : s.cfg.atomicSleep = true → s.sync = .sleep → s.empty = true
  /-- Until INIT the buffer is as reset left it (rule R117). -/
  beforeInit : s.rxEn = false →
    s.head = s.cfg.resetIndex ∧ s.tail = s.cfg.resetIndex ∧ s.data = []

/-! ## Moves -/

/-- The move is one that its agent has in this state (rule R113): the producer issues the PUSH of a byte that arrives
and nothing else; the consumer issues its own operations, only when SYNC = RUN (rule R76), and takes the synchronizer
step its state enables (rules R79, R82); an arriving byte, an IRQX and a reset may come at any time. A word that decodes
to no operation on its port, so in particular one in the wrong context, is no agent's move, though the block answers it
ILLEGAL (rule R61; notes/assumptions/20.md). -/
def Event.Enabled (s : State) : Event → Prop
  | .word .producer w => ∃ b, decode .producer w = .instr (.push b)
  | .word .consumer w => s.sync = .run ∧ ∃ i, decode .consumer w = .instr i
  | .rx _ => True
  | .irqx => True
  | .reset => True
  | .sleep => s.sync = .presleep
  | .recheck => s.sync = .woken

/-- The move is one of the consumer's own. -/
def Event.ofConsumer : Event → Bool
  | .word .consumer _ => true
  | .sleep => true
  | .recheck => true
  | .word .producer _ => false
  | .rx _ => false
  | .irqx => false
  | .reset => false

/-- The move issues the operation `i`: a word that decodes to it, or the arrival of the byte that PUSH carries. -/
def Event.issues (e : Event) (i : Instr) : Prop :=
  (∃ p w, e = .word p w ∧ decode p w = .instr i) ∨ (∃ b, e = .rx b ∧ i = .push b)

/-- The move is a wake event: a PUSH with RX_EN = 1, or an IRQX (rules R68, R80, R99). -/
def Event.wakes (s : State) (e : Event) : Prop := e = .irqx ∨ (s.rxEn = true ∧ ∃ b, e.issues (.push b))

/-- The state with `e` as its next move. -/
def State.facing (s : State) (e : Event) (rest : List Event) : State := s.setInputs (e :: rest)

/-! ## The unread bytes -/

/-- The `n` slots that follow `t`, oldest first (rule R28). -/
def slotsAfter (c : Nat) (m : Memory) : Nat → Nat → List (Option Byte)
  | 0, _ => []
  | n + 1, t => Memory.read m (nextIndex c t) :: slotsAfter c m n (nextIndex c t)

/-- The unread bytes, oldest first (rule R28). -/
def State.contents (s : State) : List (Option Byte) := slotsAfter s.cfg.capacity s.data s.count s.tail

/-- DATA reads the same at every index. -/
def SameData (s t : State) : Prop := ∀ a, Memory.read t.data a = Memory.read s.data a

/-- DATA, HEAD, TAIL and CTRL are the same: the buffer state of rule R97. -/
structure SameBuffer (s t : State) : Prop where
  data : SameData s t
  head : t.head = s.head
  tail : t.tail = s.tail
  ctrl : t.ctrl = s.ctrl

/-- The parameters and the schedule are the same: what no operation may touch. -/
structure SameSurroundings (s t : State) : Prop where
  cfg : t.cfg = s.cfg
  inputs : t.inputs = s.inputs

/-- SYNC and PEND are the same. -/
structure SameWait (s t : State) : Prop where
  sync : t.sync = s.sync
  pend : t.pend = s.pend

/-- SYNC and PEND as a wake event leaves them (rule R81). -/
structure Woken (s t : State) : Prop where
  sync : t.sync = if s.sync = .sleep then .woken else s.sync
  pend : t.pend = s.pend

/-- The transition answered on port `p` with the word `w`. -/
def Answered (t : State) (p : Port) (w : Word) : Prop := t.resp = some ⟨p, w⟩

/-- Two states that no sequence of moves can tell apart at the ports: they agree on all but where in DATA the unread
bytes stand, and what stands in the other slots (rules R8, R29). -/
structure PortEqual (s t : State) : Prop where
  capacity : t.cfg.capacity = s.cfg.capacity
  blockDefault : t.cfg.blockDefault = s.cfg.blockDefault
  atomicSleep : t.cfg.atomicSleep = s.cfg.atomicSleep
  contents : t.contents = s.contents
  ctrl : t.ctrl = s.ctrl
  sync : t.sync = s.sync
  pend : t.pend = s.pend
  inputs : t.inputs = s.inputs
  resp : t.resp = s.resp

/-! ## Runs -/

/-- The bytes of a run (rule R44): those of every PUSH that responded OK, and those returned with OK by every POP and
every completed GET, since the last reset or INIT. -/
structure History where
  accepted : List Byte
  returned : List Byte
deriving DecidableEq, Repr

/-- The byte that the move pushes into `s`, if it is a PUSH. -/
def Event.pushed (e : Event) : Option Byte :=
  match e with
  | .rx b => some b
  | .word p w =>
    match decode p w with
    | .instr (.push b) => some b
    | _ => none
  | _ => none

/-- The move, taken in `s`, is one that returns a byte when it answers OK: POP, GET, or the re-check of a GET. -/
def Event.takes (e : Event) (s : State) : Bool :=
  match e with
  | .word p w => decode p w == .instr .pop || decode p w == .instr .get
  | .recheck => s.pend == .get
  | _ => false

/-- The move starts the history afresh when it is taken: a reset, or an INIT that is not INVALID (rule R44). -/
def Event.clears (e : Event) : Bool :=
  match e with
  | .reset => true
  | .word p w =>
    match decode p w with
    | .instr (.init blk) => blk != .both
    | _ => false
  | _ => false

/-- RC of a response word is OK (rules R57, R58). -/
def isOk (w : Word) : Bool := w.extractLsb' 12 4 == 0#4

/-- The history after the move `e` has taken `s` to `t`. -/
def History.record (h : History) (e : Event) (s t : State) : History :=
  if e.clears then ⟨[], []⟩
  else
    match t.resp with
    | none => h
    | some r =>
      if isOk r.word = false then h
      else
        match e.pushed with
        | some b => ⟨h.accepted ++ [b], h.returned⟩
        | none => if e.takes s then ⟨h.accepted, h.returned ++ [r.word.extractLsb' 0 8]⟩ else h

/-- The history fits the state (rules R28, R44): the bytes accepted are those returned and then the unread ones. -/
def History.Fits (h : History) (s : State) : Prop := h.accepted.map some = h.returned.map some ++ s.contents

/-- `n` steps with their history; none where the run stops. -/
def runHistory : Nat → State → History → Option (State × History)
  | 0, s, h => some (s, h)
  | n + 1, s, h =>
    match step s with
    | .next t =>
      match s.inputs with
      | [] => runHistory n t h
      | e :: _ => runHistory n t (h.record e s t)
    | _ => none

/-- PUSH each byte in turn, with nothing between; none where one does not complete. -/
def pushAll : List Byte → State → Option State
  | [], s => some s
  | b :: bs, s =>
    match exec (.push b) s with
    | .next t => pushAll bs t
    | _ => none

/-! ## Infinite runs and fairness (rules R113, R129) -/

/-- An infinite run of the agents: at each point either one agent makes a move it has there, or none moves. It is told
by its states and its moves, so the schedule each state carries is of no account (the form is the model's, notes/assumptions/19.md). -/
structure AgentRun (states : Nat → State) (moves : Nat → Option Event) : Prop where
  /-- Every move is one its agent has. -/
  enabled : ∀ n e, moves n = some e → e.Enabled (states n)
  /-- Every point follows from the one before by a step on that move. -/
  follows : ∀ n, step ((states n).setInputs (moves n).toList) = .next (states (n + 1))

/-- Weak fairness of the consumer's own steps (rule R113): `(sleep)` or `(recheck)`, once enabled for good, is taken.
No other agent owes anything: no byte need ever arrive. -/
def WeaklyFair (states : Nat → State) (moves : Nat → Option Event) : Prop :=
  ∀ c : Event, c = .sleep ∨ c = .recheck →
    ∀ n, (∀ m, n ≤ m → c.Enabled (states m)) → ∃ m, n ≤ m ∧ moves m = some c

end Sys2Proof.Machine
end

