-- ==== Sys2Proof/Certificates/Slice0/Obligations.lean ====
section
/-! DEFINITION. What is claimed of the block, one statement each; OBLIGATIONS.json gives each its rule of the spec. -/

open Sys2Proof Sys2Proof.Machine

/-! ## Operation words -/

/-- The words of rule R63's table stand for their operations, for every byte in the case of PUSH. -/
def Obligations.AssemblerWordsDecode : Prop :=
  (∀ b : Byte, decode .producer (0x1000#16 + b.setWidth 16) = .instr (.push b)) ∧
  decode .consumer 0x2000#16 = .instr .pop ∧
  decode .consumer 0x3000#16 = .instr .isempty ∧
  decode .consumer 0x4000#16 = .instr .wait ∧
  decode .consumer 0x5000#16 = .instr .get ∧
  decode .consumer 0x6000#16 = .instr (.init .neither) ∧
  decode .consumer 0x6400#16 = .instr (.init .block) ∧
  decode .consumer 0x6800#16 = .instr (.init .noblock) ∧
  decode .consumer 0x6C00#16 = .instr (.init .both) ∧
  decode .consumer 0x7000#16 = .instr (.ctrl .neither) ∧
  decode .consumer 0x7400#16 = .instr (.ctrl .block) ∧
  decode .consumer 0x7800#16 = .instr (.ctrl .noblock) ∧
  decode .consumer 0x7C00#16 = .instr (.ctrl .both) ∧
  decode .consumer 0x8000#16 = .instr .close ∧
  decode .consumer 0x9000#16 = .instr .status

/-- A word on a port is an operation exactly when it is that operation's word and the operation belongs on that port:
decoding gives back what was encoded, and every word has one meaning. -/
def Obligations.DecodeAgreesWithEncode : Prop :=
  ∀ (p : Port) (w : Word) (i : Instr), decode p w = .instr i ↔ (i.WellFormedOn p ∧ encode i = w)

/-- Rule R56's decode order: a reserved OP first, then the wrong port, then a non-zero unused field (rule R54), said
of the number the word is; and an illegal word is answered ILLEGAL and changes nothing (rule R61). -/
def Obligations.IllegalWordsAreAnsweredAndDropped : Prop :=
  (∀ (p : Port) (w : Word),
    (decode p w = .illegal .reservedOp ↔ (w.toNat < 0x1000 ∨ 0xA000 ≤ w.toNat)) ∧
    (decode p w = .illegal .wrongPort ↔
      (0x1000 ≤ w.toNat ∧ w.toNat < 0xA000 ∧ ¬(w.toNat < 0x2000 ↔ p = .producer))) ∧
    (decode p w = .illegal .unusedField ↔
      (0x1000 ≤ w.toNat ∧ w.toNat < 0xA000 ∧ (w.toNat < 0x2000 ↔ p = .producer) ∧
        (if w.toNat < 0x2000 then 0x1100 ≤ w.toNat
         else if 0x6000 ≤ w.toNat ∧ w.toNat < 0x8000 then w.toNat % 0x400 ≠ 0
         else w.toNat % 0x1000 ≠ 0)))) ∧
  (∀ (s : State) (p : Port) (w : Word) (why : IllegalWord) (rest : List Event),
    s.Ready → (p = .consumer → s.sync = .run) → decode p w = .illegal why →
      step (s.facing (.word p w) rest) = .next ((s.setInputs rest).setResp (some ⟨p, 0x5000#16⟩)))

/-- A word at the head of the schedule that decodes to an operation is that operation's meaning, the schedule moved
past it; and an arriving byte is the PUSH word of that byte (rules R56, R65). The third clause is the model's own choice,
notes/assumptions/18.md: the word the host places is the next step, a wait ended first for a consumer word. -/
def Obligations.StepRunsTheDecodedOperation : Prop :=
  (∀ (s : State) (p : Port) (w : Word) (i : Instr) (rest : List Event), decode p w = .instr i →
    step (s.facing (.word p w) rest) = exec i (s.setInputs rest)) ∧
  (∀ (s : State) (b : Byte) (rest : List Event),
    step (s.facing (.rx b) rest) = step (s.facing (.word .producer (0x1000#16 + b.setWidth 16)) rest)) ∧
  (∀ (s : State) (nbits w : Nat) (i : Instr), decodeTableWord nbits w = some i →
    step (s.withFetchWord nbits w) = exec i (if i.port = .producer then s else s.endWait))

/-- Every response word has RC in bits 15:12, 0 in bits 11:8 and the byte in bits 7:0, RC at most 6 (rules R57, R58). -/
def Obligations.ResponseWordsAreWellFormed : Prop :=
  ∀ (s t : State) (r : Response), step s = .next t → t.resp = some r →
    r.word.toNat < 0x7000 ∧ r.word.toNat / 0x100 % 0x10 = 0 ∧ (isOk r.word = false → r.word.toNat % 0x100 = 0)

/-! ## Indices and derived flags -/

/-- The index step on legal indices (rule R34). -/
def Obligations.NextDecrementsAndWraps : Prop :=
  ∀ c i : Nat, 3 ≤ c → legalIndex c i →
    (2 ≤ i → nextIndex c i = i - 1) ∧ (i = 1 → nextIndex c i = c - 1) ∧
    legalIndex c (nextIndex c i) ∧ nextIndex c i ≠ 0

/-- `next` permutes [1, C-1] in one cycle of length C-1, with rule R35's closed form. -/
def Obligations.NextIsOneCycle : Prop :=
  ∀ c : Nat, 3 ≤ c →
    (∀ i k : Nat, legalIndex c i →
      ((nextIter c k i : Nat) : Int) = ((i : Int) - 1 - k) % ((c : Int) - 1) + 1) ∧
    (∀ i j : Nat, legalIndex c i → legalIndex c j → nextIndex c i = nextIndex c j → i = j) ∧
    (∀ i j : Nat, legalIndex c i → legalIndex c j → ∃ k, k < c - 1 ∧ nextIter c k i = j) ∧
    (∀ i k : Nat, legalIndex c i → (nextIter c k i = i ↔ (c - 1) ∣ k)) ∧
    (nextIndex 32 1 = 31 ∧ nextIndex 32 31 = 30 ∧ nextIndex 32 2 = 1)

/-- COUNT is the number of steps of `next` from TAIL to HEAD, in [0, C-2]; EMPTY and FULL are its two ends (rule
R24). -/
def Obligations.CountIsTheDistanceFromTailToHead : Prop :=
  ∀ s : State, s.Ready →
    ((s.count : Int) = ((s.tail : Int) - s.head) % ((s.cfg.capacity : Int) - 1)) ∧
    nextIter s.cfg.capacity s.count s.tail = s.head ∧
    (∀ k, k < s.count → nextIter s.cfg.capacity k s.tail ≠ s.head) ∧
    s.count ≤ s.cfg.capacity - 2 ∧
    (s.empty = true ↔ s.count = 0) ∧ (s.full = true ↔ s.count = s.cfg.capacity - 2)

/-- EMPTY and FULL never hold together when C ≥ 3, for `next` has no fixed point (rule R25). -/
def Obligations.EmptyAndFullAreDisjoint : Prop :=
  (∀ c i : Nat, 3 ≤ c → legalIndex c i → nextIndex c i ≠ i) ∧
  (∀ s : State, s.Ready → ¬(s.empty = true ∧ s.full = true))

/-- HEAD and TAIL fit in IDX_W bits, and no narrower register would hold every index (rule R7); IDX_W is 5 at C = 32. -/
def Obligations.IndicesFitTheirRegisters : Prop :=
  (∀ s : State, s.Ready → s.head < 2 ^ s.cfg.idxW ∧ s.tail < 2 ^ s.cfg.idxW ∧
    2 ^ (s.cfg.idxW - 1) ≤ s.cfg.capacity - 1) ∧
  Config.default.capacity = 32 ∧ Config.default.idxW = 5

/-! ## Reset, configuration and the invariant -/

/-- Every piece of state after power-on reset (rule R33), whatever the parameters. -/
def Obligations.PowerOnValues : Prop :=
  (∀ c : Config, c.WellFormed →
    (State.powerOn c).head = c.resetIndex ∧ (State.powerOn c).tail = c.resetIndex ∧
    (∀ a, Memory.read (State.powerOn c).data a = none) ∧
    (State.powerOn c).rxEn = false ∧ (State.powerOn c).block = false ∧ (State.powerOn c).ctrl &&& 0xFC#8 = 0#8 ∧
    (State.powerOn c).sync = .run ∧ (State.powerOn c).pend = .none ∧
    (State.powerOn c).empty = true ∧ (State.powerOn c).full = false) ∧
  State.reset = State.powerOn Config.default

/-- A reset may come in any state, a wait in progress included: in one transition everything is at its power-on value
and no response is given (rules R115, R116). -/
def Obligations.ResetEndsEverythingSilently : Prop :=
  ∀ (s : State) (rest : List Event), s.Ready → ∃ t, step (s.facing .reset rest) = .next t ∧
    t.head = s.cfg.resetIndex ∧ t.tail = s.cfg.resetIndex ∧ (∀ a, Memory.read t.data a = none) ∧
    t.rxEn = false ∧ t.block = false ∧ t.ctrl = 0#8 ∧ t.sync = .run ∧ t.pend = .none ∧ t.resp = none ∧
    t.cfg = s.cfg ∧ t.inputs = rest

/-- The state after reset satisfies the invariant, under every legal configuration and whatever is scheduled. -/
def Obligations.ResetMeetsTheInvariant : Prop :=
  (∀ (c : Config) (es : List Event), c.WellFormed → ((State.powerOn c).setInputs es).Inv) ∧ State.reset.Inv

/-- Every step keeps the invariant: index ranges, the canonical form of DATA, values in every unread slot, CTRL's
reserved bits, PEND with SYNC, BLOCK during a wait, no sleep on data where check and sleep are one step, and an untouched
buffer until INIT. -/
def Obligations.EveryStepKeepsTheInvariant : Prop :=
  ∀ s t : State, s.Inv → step s = .next t → t.Inv

/-- No state that satisfies the invariant faults, whatever is scheduled next: INDEX_RANGE and the other states the
spec calls a fault are never met (rules R17, R29). -/
def Obligations.TheInvariantExcludesEveryFault : Prop :=
  ∀ (s : State) (f : Fault), s.Inv → step s ≠ .fault f

/-- Every move that an agent has may come next (rules R103, R113), and takes its place in the schedule alone. What is
no agent's move (rules R76, R113, U12) has no effect: a word that decodes to no operation on its port is answered
ILLEGAL, if the port accepts it, and anything else is refused (the form of the refusal is the model's choice,
notes/assumptions/8.md). -/
def Obligations.ExactlyTheEnabledMovesAreTaken : Prop :=
  ∀ (s : State) (e : Event) (rest : List Event), s.Inv →
    (e.Enabled s → ∃ t, step (s.facing e rest) = .next t ∧ t.inputs = rest ∧ t.cfg = s.cfg) ∧
    (¬e.Enabled s →
      (∃ p w why, e = .word p w ∧ decode p w = .illegal why ∧ (p = .consumer → s.sync = .run) ∧
        step (s.facing e rest) = .next ((s.setInputs rest).setResp (some ⟨p, 0x5000#16⟩))) ∨
      (∃ r, step (s.facing e rest) = .refused r ∧ (r = .consumerHeld ∨ r = .stepNotEnabled)))

/-- A configuration with C < 3, with RESET_INDEX out of range, with other than one producer and one consumer, or with
index accesses that are not atomic and in order, is refused in every state (rules R5, R8, R108, R121). -/
def Obligations.BadConfigurationsAreRefused : Prop :=
  ∀ s : State,
    ((s.cfg.capacity < 3 ∨ s.cfg.resetIndex < 1 ∨ s.cfg.capacity ≤ s.cfg.resetIndex ∨ s.cfg.producers ≠ 1 ∨
        s.cfg.consumers ≠ 1 ∨ s.cfg.atomicIndex = false ∨ s.cfg.inOrder = false) ↔
      ∃ why, step s = .refused (.configuration why))

/-- A state with HEAD or TAIL outside [1, C-1] gets no next step: every transition faults INDEX_RANGE (rule R17). -/
def Obligations.IndexOutOfRangeIsAFault : Prop :=
  ∀ s : State, s.cfg.WellFormed → ¬s.indexOk →
    step s = .fault .indexRange ∧ (∀ i : Instr, exec i s = .fault .indexRange)

/-! ## The producer -/

/-- PUSH with RX_EN = 0: RX_OFF, and nothing else changes (rule R67). -/
def Obligations.PushIsLostWhileReceiveIsOff : Prop :=
  ∀ (s : State) (b : Byte), s.Ready → s.rxEn = false →
    ∃ t, exec (.push b) s = .next t ∧ Answered t .producer 0x6000#16 ∧
      SameBuffer s t ∧ SameWait s t ∧ SameSurroundings s t

/-- PUSH into a full buffer: DROPPED, no buffer state changes, and it is a wake event all the same (rules R66, R68). -/
def Obligations.PushIsDroppedWhenFull : Prop :=
  ∀ (s : State) (b : Byte), s.Ready → s.rxEn = true → s.full = true →
    ∃ t, exec (.push b) s = .next t ∧ Answered t .producer 0x2000#16 ∧
      SameBuffer s t ∧ Woken s t ∧ SameSurroundings s t

/-- PUSH with room: HEAD advances, the byte is stored at the new HEAD and nowhere else, and it is a wake event
(rules R66, R68). -/
def Obligations.PushStoresAtTheNewHead : Prop :=
  ∀ (s : State) (b : Byte), s.Ready → s.rxEn = true → s.full = false →
    ∃ t, exec (.push b) s = .next t ∧ Answered t .producer 0x0000#16 ∧
      t.head = nextIndex s.cfg.capacity s.head ∧ Memory.read t.data (nextIndex s.cfg.capacity s.head) = some b ∧
      (∀ a, a ≠ nextIndex s.cfg.capacity s.head → Memory.read t.data a = Memory.read s.data a) ∧
      t.tail = s.tail ∧ t.ctrl = s.ctrl ∧ Woken s t ∧ SameSurroundings s t ∧
      t.empty = false ∧ (t.full = true ↔ s.count = s.cfg.capacity - 3) ∧ t.count = s.count + 1

/-- PUSH always completes in its one transition, whatever the consumer is doing (rule R70). -/
def Obligations.PushNeverWaits : Prop :=
  ∀ (s : State) (b : Byte), s.Ready → ∃ t w, exec (.push b) s = .next t ∧ t.resp = some ⟨.producer, w⟩

/-- The slot an accepted PUSH writes is not an unread one, so every unread byte stands after it; a PUSH into a full
buffer leaves the buffer as it was (rule R45, with the wake of rule R68). -/
def Obligations.PushNeverOverwritesUnreadData : Prop :=
  ∀ (s t : State) (b : Byte), s.Ready → exec (.push b) s = .next t →
    (t.head ≠ s.head → t.head ≠ s.tail ∧ ¬s.unread t.head ∧ t.contents = s.contents ++ [some b]) ∧
    (∀ i, s.unread i → t.unread i ∧ Memory.read t.data i = Memory.read s.data i) ∧
    (s.full = true → SameBuffer s t)

/-! ## The consumer's operations that never wait -/

/-- POP on an empty buffer: EMPTY, and nothing else changes (rule R72). -/
def Obligations.PopOfAnEmptyBufferAnswersEmpty : Prop :=
  ∀ s : State, s.Quiescent → s.empty = true →
    ∃ t, exec .pop s = .next t ∧ Answered t .consumer 0x1000#16 ∧
      SameBuffer s t ∧ SameWait s t ∧ SameSurroundings s t

/-- POP on a buffer that holds data: TAIL advances and the byte at the new TAIL is returned, whatever BLOCK is
(rules R72, R75). -/
def Obligations.PopReturnsTheOldestByte : Prop :=
  ∀ (s : State) (b : Byte), s.Quiescent → s.empty = false →
    Memory.read s.data (nextIndex s.cfg.capacity s.tail) = some b →
    ∃ t, exec .pop s = .next t ∧ Answered t .consumer (b.setWidth 16) ∧
      t.tail = nextIndex s.cfg.capacity s.tail ∧ t.head = s.head ∧ SameData s t ∧ t.ctrl = s.ctrl ∧
      SameWait s t ∧ SameSurroundings s t ∧
      t.full = false ∧ (t.empty = true ↔ s.count = 1) ∧ t.count + 1 = s.count ∧ s.contents = some b :: t.contents

/-- ISEMPTY answers 1 on an empty buffer and 0 on another, and changes nothing (rule R73). -/
def Obligations.IsemptyAnswersTheFlag : Prop :=
  ∀ s : State, s.Quiescent →
    ∃ t, exec .isempty s = .next t ∧ Answered t .consumer (if s.head = s.tail then 0x0001#16 else 0x0000#16) ∧
      SameBuffer s t ∧ SameWait s t ∧ SameSurroundings s t

/-- STATUS answers EMPTY, FULL, RX_EN and BLOCK in bits 0 to 3, and changes nothing (rules R60, R74). -/
def Obligations.StatusAnswersFlagsAndControl : Prop :=
  ∀ s : State, s.Quiescent →
    ∃ t, exec .status s = .next t ∧
      Answered t .consumer (BitVec.ofNat 16
        ((if s.head = s.tail then 1 else 0) + (if nextIndex s.cfg.capacity s.head = s.tail then 2 else 0)
          + 4 * (s.ctrl.toNat % 4))) ∧
      SameBuffer s t ∧ SameWait s t ∧ SameSurroundings s t

/-- The slot POP or a completing GET would read holds no value: the operation has nothing to return and the machine
stops (the model's reading of rule R29, notes/assumptions/5.md). -/
def Obligations.ASlotWithoutValueIsNeverReturned : Prop :=
  ∀ s : State, s.Ready → s.empty = false → Memory.read s.data (nextIndex s.cfg.capacity s.tail) = none →
    (s.sync = .run → exec .pop s = .fault .slotWithoutValue ∧ exec .get s = .fault .slotWithoutValue) ∧
    (∀ rest, s.sync = .woken → s.pend = .get → step (s.facing .recheck rest) = .fault .slotWithoutValue)

/-- ISEMPTY, STATUS, CLOSE, and WAIT when it completes, issued twice in a row give the same response and the same
state as once (rule R40). -/
def Obligations.ReadingOperationsAreIdempotent : Prop :=
  ∀ (s t : State) (i : Instr), (i = .isempty ∨ i = .status ∨ i = .close ∨ (i = .wait ∧ s.empty = false)) →
    exec i s = .next t → exec i t = .next t

/-! ## The synchronizer -/

/-- WAIT when issued: OK at once on a buffer that holds data, WOULD_BLOCK on an empty one with BLOCK = 0, and
otherwise a sleep with no response (rules R77 to R79, R84). -/
def Obligations.WaitChecksThenAnswersOrSleeps : Prop :=
  ∀ s : State, s.Quiescent →
    (s.empty = false → ∃ t, exec .wait s = .next t ∧ Answered t .consumer 0x0000#16 ∧
      SameBuffer s t ∧ t.sync = .run ∧ t.pend = .none ∧ SameSurroundings s t) ∧
    (s.empty = true → s.block = false → ∃ t, exec .wait s = .next t ∧ Answered t .consumer 0x3000#16 ∧
      SameBuffer s t ∧ SameWait s t ∧ SameSurroundings s t) ∧
    (s.empty = true → s.block = true → ∃ t, exec .wait s = .next t ∧ t.resp = none ∧
      SameBuffer s t ∧ t.sync = (if s.cfg.atomicSleep = true then .sleep else .presleep) ∧ t.pend = .wait ∧
      SameSurroundings s t)

/-- GET when issued: the oldest byte at once from a buffer that holds data, WOULD_BLOCK on an empty one with BLOCK = 0,
and otherwise a sleep with no response (rules R77, R85, R86). -/
def Obligations.GetChecksThenReturnsOrSleeps : Prop :=
  ∀ s : State, s.Quiescent →
    (∀ b, s.empty = false → Memory.read s.data (nextIndex s.cfg.capacity s.tail) = some b →
      ∃ t, exec .get s = .next t ∧ Answered t .consumer (b.setWidth 16) ∧
        t.tail = nextIndex s.cfg.capacity s.tail ∧ t.head = s.head ∧ SameData s t ∧ t.ctrl = s.ctrl ∧
        t.sync = .run ∧ t.pend = .none ∧ SameSurroundings s t ∧
        t.full = false ∧ (t.empty = true ↔ s.count = 1) ∧ t.count + 1 = s.count) ∧
    (s.empty = true → s.block = false → ∃ t, exec .get s = .next t ∧ Answered t .consumer 0x3000#16 ∧
      SameBuffer s t ∧ SameWait s t ∧ SameSurroundings s t) ∧
    (s.empty = true → s.block = true → ∃ t, exec .get s = .next t ∧ t.resp = none ∧
      SameBuffer s t ∧ t.sync = (if s.cfg.atomicSleep = true then .sleep else .presleep) ∧ t.pend = .get ∧
      SameSurroundings s t)

/-- (sleep) enters SLEEP without reading the buffer again (rule R79). -/
def Obligations.SleepEntryIsUnconditional : Prop :=
  ∀ (s : State) (rest : List Event), s.Ready → s.sync = .presleep →
    ∃ t, step (s.facing .sleep rest) = .next t ∧ t.sync = .sleep ∧ t.pend = s.pend ∧ t.resp = none ∧
      SameBuffer s t ∧ t.cfg = s.cfg ∧ t.inputs = rest

/-- (recheck), in WOKEN: on data it completes the waiting operation, WAIT with OK and GET with the oldest byte; on an
empty buffer it goes back to sleep, whatever BLOCK is (rules R82 to R84, R86). Outside WOKEN it is not enabled (rule
R82); that a schedule naming it there is refused, as stepNotEnabled, is the model's choice, notes/assumptions/8.md. -/
def Obligations.RecheckCompletesOrSleepsAgain : Prop :=
  ∀ (s : State) (rest : List Event), s.Ready →
    (s.sync ≠ .woken → step (s.facing .recheck rest) = .refused .stepNotEnabled) ∧
    (s.sync = .woken → s.empty = false → s.pend = .wait →
      ∃ t, step (s.facing .recheck rest) = .next t ∧ Answered t .consumer 0x0000#16 ∧ SameBuffer s t ∧
        t.sync = .run ∧ t.pend = .none ∧ t.cfg = s.cfg ∧ t.inputs = rest) ∧
    (∀ b, s.sync = .woken → s.empty = false → s.pend = .get →
      Memory.read s.data (nextIndex s.cfg.capacity s.tail) = some b →
      ∃ t, step (s.facing .recheck rest) = .next t ∧ Answered t .consumer (b.setWidth 16) ∧
        t.tail = nextIndex s.cfg.capacity s.tail ∧ t.head = s.head ∧ SameData s t ∧ t.ctrl = s.ctrl ∧
        t.sync = .run ∧ t.pend = .none ∧ t.cfg = s.cfg ∧ t.inputs = rest) ∧
    (s.sync = .woken → s.empty = true →
      ∃ t, step (s.facing .recheck rest) = .next t ∧ t.resp = none ∧ SameBuffer s t ∧
        t.sync = (if s.cfg.atomicSleep = true then .sleep else .presleep) ∧ t.pend = s.pend ∧
        t.cfg = s.cfg ∧ t.inputs = rest)

/-- An interrupt of another line wakes a sleeping consumer, is not remembered otherwise, and touches nothing else
(rules R81, R99, R101). -/
def Obligations.ForeignInterruptOnlyWakes : Prop :=
  ∀ (s : State) (rest : List Event), s.Ready →
    ∃ t, step (s.facing .irqx rest) = .next t ∧ t.resp = none ∧ SameBuffer s t ∧ Woken s t ∧
      t.cfg = s.cfg ∧ t.inputs = rest

/-- In SLEEP the consumer has no enabled step, and only a wake event or a reset lifts the hold; each of them does
(rule R80). -/
def Obligations.OnlyWakeEventsAndResetLiftTheSleep : Prop :=
  ∀ (s : State) (e : Event) (rest : List Event), s.Ready → s.sync = .sleep →
    (e.ofConsumer = true → ∃ r, step (s.facing e rest) = .refused r) ∧
    (∀ t, step (s.facing e rest) = .next t → t.sync ≠ .sleep → (e.wakes s ∧ t.sync = .woken) ∨ (e = .reset ∧ t.sync = .run)) ∧
    (e.wakes s → ∃ t, step (s.facing e rest) = .next t ∧ t.sync = .woken) ∧
    (e = .reset → ∃ t, step (s.facing e rest) = .next t ∧ t.sync = .run)

/-- SLEEP is entered only from the check of WAIT or GET, from (sleep), or from the re-check, and except from (sleep)
only on an empty buffer with check and sleep in one step (rules R77, R78, R109). -/
def Obligations.SleepIsEnteredOnlyByTheSynchronizer : Prop :=
  ∀ (s t : State) (e : Event) (rest : List Event), s.sync ≠ .sleep → step (s.facing e rest) = .next t → t.sync = .sleep →
    (e = .sleep ∧ s.sync = .presleep) ∨
    ((e.issues .wait ∨ e.issues .get) ∧ s.sync = .run ∧ s.empty = true ∧ s.block = true ∧ s.cfg.atomicSleep = true) ∨
    (e = .recheck ∧ s.sync = .woken ∧ s.empty = true ∧ s.cfg.atomicSleep = true)

/-- The consumer is answered exactly when its move leaves it not waiting: an operation that goes to sleep has no
response yet, and a move of another agent never answers it (`30_encoding.md` §1, rules R77, R82). -/
def Obligations.ConsumerIsAnsweredWhenItsOperationEnds : Prop :=
  ∀ (s t : State) (e : Event) (rest : List Event), s.Inv → step (s.facing e rest) = .next t →
    ((∃ w, t.resp = some ⟨.consumer, w⟩) ↔ (e.ofConsumer = true ∧ t.sync = .run)) ∧
    ((∃ w, t.resp = some ⟨.producer, w⟩) ↔ ((∃ b, e = .rx b) ∨ ∃ w, e = .word .producer w))

/-- A wake that leaves the buffer empty sends the synchronizer back to sleep, any number of times; a PUSH with RX_EN = 1
is never such a wake (rule R89). -/
def Obligations.SpuriousWakesReturnToSleep : Prop :=
  (∀ (s t : State) (b : Byte), s.Ready → s.rxEn = true → exec (.push b) s = .next t → t.empty = false) ∧
  (∀ (s : State) (rest : List Event), s.Ready → s.sync = .sleep → s.empty = true →
    ∃ t, Sys2Proof.core.run 2 (s.facing .irqx (.recheck :: rest)) = .next t ∧ t.resp = none ∧ SameBuffer s t ∧
      t.sync = (if s.cfg.atomicSleep = true then .sleep else .presleep) ∧ t.pend = s.pend ∧ t.inputs = rest) ∧
  (∀ (s : State) (n : Nat) (rest : List Event), s.Ready → s.sync = .sleep → s.empty = true → s.cfg.atomicSleep = true →
    ∃ t, Sys2Proof.core.run (2 * n) (s.setInputs ((List.replicate n [Event.irqx, Event.recheck]).flatten ++ rest)) = .next t ∧
      SameBuffer s t ∧ SameWait s t ∧ t.inputs = rest) ∧
  (∀ (s : State) (n : Nat) (rest : List Event), s.Ready → s.sync = .sleep → s.empty = true → s.cfg.atomicSleep = false →
    ∃ t, Sys2Proof.core.run (3 * n)
        (s.setInputs ((List.replicate n [Event.irqx, Event.recheck, Event.sleep]).flatten ++ rest)) = .next t ∧
      SameBuffer s t ∧ SameWait s t ∧ t.inputs = rest)

/-- There is no timeout: a wait on an empty buffer is not answered in any run in which no byte arrives and no reset
comes, whatever other interrupts occur (rules R88, R123). -/
def Obligations.AWaitWithoutDataNeverEnds : Prop :=
  ∀ (n : Nat) (s t : State), s.Inv → s.sync ≠ .run → s.empty = true →
    (∀ e ∈ s.inputs, e.pushed = none ∧ e ≠ .reset) → Sys2Proof.core.run n s = .next t →
    t.sync ≠ .run ∧ t.empty = true ∧ t.pend = s.pend ∧ (n ≠ 0 → ∀ w, t.resp ≠ some ⟨.consumer, w⟩)

/-- Before INIT, operations act on the reset state: POP answers EMPTY, ISEMPTY 1, WAIT and GET WOULD_BLOCK while
BLOCK = 0; and with BLOCK = 1 a WAIT or GET never completes before a reset, whatever bytes and interrupts arrive
(rule R119). -/
def Obligations.BeforeInitNothingIsReceived : Prop :=
  (∀ s : State, s.Inv → s.sync = .run → s.rxEn = false →
    (∃ t, exec .pop s = .next t ∧ Answered t .consumer 0x1000#16) ∧
    (∃ t, exec .isempty s = .next t ∧ Answered t .consumer 0x0001#16) ∧
    (s.block = false → (∃ t, exec .wait s = .next t ∧ Answered t .consumer 0x3000#16) ∧
      (∃ t, exec .get s = .next t ∧ Answered t .consumer 0x3000#16)) ∧
    (s.block = true → (∃ t, exec .wait s = .next t ∧ t.sync ≠ .run ∧ t.rxEn = false) ∧
      (∃ t, exec .get s = .next t ∧ t.sync ≠ .run ∧ t.rxEn = false))) ∧
  (∀ (n : Nat) (s t : State), s.Inv → s.rxEn = false → s.sync ≠ .run → (∀ e ∈ s.inputs, e ≠ .reset) →
    Sys2Proof.core.run n s = .next t → t.rxEn = false ∧ t.sync ≠ .run ∧ t.empty = true ∧ t.pend = s.pend)

/-- The lost wakeup of ATOMIC_SLEEP = false: a byte that arrives between the check and (sleep) leaves the consumer
asleep on data, for as long as no move is scheduled, until another interrupt and a re-check complete the operation
(rules R79, R122). -/
def Obligations.AByteBeforeSleepEntryDoesNotStopTheSleep : Prop :=
  ∀ (s : State) (b : Byte) (rest : List Event), s.Inv → s.sync = .presleep → s.rxEn = true →
    ∃ t, Sys2Proof.core.run 2 (s.facing (.rx b) (.sleep :: rest)) = .next t ∧
      t.sync = .sleep ∧ t.empty = false ∧ t.pend = s.pend ∧ t.inputs = rest ∧
      (∀ n, ∃ u, Sys2Proof.core.run n (t.setInputs []) = .next u ∧ u.sync = .sleep ∧ u.empty = false) ∧
      (∃ u w, Sys2Proof.core.run 2 (t.setInputs [.irqx, .recheck]) = .next u ∧ u.sync = .run ∧
        u.resp = some ⟨.consumer, w⟩)

/-! ## Control -/

/-- INIT with BLK other than 11: indices at RESET_INDEX, BLOCK from BLK, RX_EN on, DATA untouched (rules R52, R90). -/
def Obligations.InitEmptiesAndEnablesReceive : Prop :=
  ∀ (s : State) (blk : Blk) (b : Bool), s.Quiescent →
    (blk = .neither ∧ b = s.cfg.blockDefault) ∨ (blk = .block ∧ b = true) ∨ (blk = .noblock ∧ b = false) →
    ∃ t, exec (.init blk) s = .next t ∧ Answered t .consumer 0x0000#16 ∧
      t.head = s.cfg.resetIndex ∧ t.tail = s.cfg.resetIndex ∧ t.rxEn = true ∧ t.block = b ∧
      t.ctrl &&& 0xFC#8 = s.ctrl &&& 0xFC#8 ∧ SameData s t ∧ SameWait s t ∧ SameSurroundings s t ∧
      t.empty = true ∧ t.full = false ∧ t.count = 0

/-- CTRL with BLK other than 11: BLOCK from BLK and nothing else (rules R52, R92). -/
def Obligations.CtrlSetsBlockAlone : Prop :=
  ∀ (s : State) (blk : Blk) (b : Bool), s.Quiescent →
    (blk = .neither ∧ b = s.block) ∨ (blk = .block ∧ b = true) ∨ (blk = .noblock ∧ b = false) →
    ∃ t, exec (.ctrl blk) s = .next t ∧ Answered t .consumer 0x0000#16 ∧
      t.block = b ∧ t.ctrl &&& 0xFD#8 = s.ctrl &&& 0xFD#8 ∧ t.head = s.head ∧ t.tail = s.tail ∧
      SameData s t ∧ SameWait s t ∧ SameSurroundings s t

/-- CTRL, in every form, leaves HEAD, TAIL, DATA and RX_EN, and so the unread bytes (rule R93). -/
def Obligations.CtrlKeepsTheUnreadBytes : Prop :=
  ∀ (s t : State) (blk : Blk), exec (.ctrl blk) s = .next t →
    t.head = s.head ∧ t.tail = s.tail ∧ SameData s t ∧ t.rxEn = s.rxEn ∧ t.contents = s.contents

/-- INIT and CTRL with BLK = 11: INVALID, and nothing else changes (rule R95). -/
def Obligations.ConflictingPairIsInvalid : Prop :=
  ∀ (s : State) (i : Instr), i = .init .both ∨ i = .ctrl .both → s.Quiescent →
    ∃ t, exec i s = .next t ∧ Answered t .consumer 0x4000#16 ∧
      SameBuffer s t ∧ SameWait s t ∧ SameSurroundings s t

/-- CLOSE: OK, and nothing else changes; the receive path stays as it is (rule R94). -/
def Obligations.CloseChangesNothing : Prop :=
  ∀ s : State, s.Quiescent →
    ∃ t, exec .close s = .next t ∧ Answered t .consumer 0x0000#16 ∧
      SameBuffer s t ∧ SameWait s t ∧ SameSurroundings s t ∧ t.rxEn = s.rxEn

/-! ## The whole machine -/

/-- Who writes what: HEAD only PUSH, TAIL only POP and the completion of GET, DATA only PUSH, but for INIT and reset
(rules R13, R18); RX_EN is set only by INIT and cleared only by reset (rule R20); BLOCK only by INIT, CTRL and reset
(rule R21). -/
def Obligations.EachRegisterHasItsOwnWriters : Prop :=
  ∀ (s t : State) (e : Event) (rest : List Event), step (s.facing e rest) = .next t →
    (t.head ≠ s.head → (∃ b, e.issues (.push b)) ∨ (∃ blk, e.issues (.init blk)) ∨ e = .reset) ∧
    (t.tail ≠ s.tail →
      e.issues .pop ∨ e.issues .get ∨ (e = .recheck ∧ s.pend = .get) ∨ (∃ blk, e.issues (.init blk)) ∨ e = .reset) ∧
    (¬SameData s t → (∃ b, e.issues (.push b)) ∨ e = .reset) ∧
    (t.rxEn ≠ s.rxEn → (t.rxEn = true ∧ ∃ blk, e.issues (.init blk)) ∨ (t.rxEn = false ∧ e = .reset)) ∧
    (t.block ≠ s.block → (∃ blk, e.issues (.init blk) ∨ e.issues (.ctrl blk)) ∨ e = .reset) ∧
    t.cfg = s.cfg ∧ t.inputs = rest

/-- A response other than OK changes no buffer state; the one change that may go with it is the wake of a DROPPED PUSH
(rule R97). -/
def Obligations.NonOkResponseChangesNoBufferState : Prop :=
  ∀ (s t : State) (e : Event) (rest : List Event) (r : Response),
    step (s.facing e rest) = .next t → t.resp = some r → isOk r.word = false →
    SameBuffer s t ∧ t.pend = s.pend ∧
      (t.sync = s.sync ∨
        (r = ⟨.producer, 0x2000#16⟩ ∧ s.rxEn = true ∧ s.sync = .sleep ∧ t.sync = .woken))

/-- Every response other than OK has its cause in rule R98's table, RDATA 0x00, and nothing recorded in
the buffer's state; in particular GET is never answered EMPTY (rule R87). -/
def Obligations.EveryNonOkResponseHasItsCause : Prop :=
  ∀ (s t : State) (e : Event) (rest : List Event) (r : Response),
    step (s.facing e rest) = .next t → t.resp = some r → isOk r.word = false →
    SameBuffer s t ∧
    ((r = ⟨.consumer, 0x1000#16⟩ ∧ e.issues .pop ∧ s.head = s.tail) ∨
     (r = ⟨.producer, 0x2000#16⟩ ∧ (∃ b, e.issues (.push b)) ∧ nextIndex s.cfg.capacity s.head = s.tail ∧ s.rxEn = true) ∨
     (r = ⟨.consumer, 0x3000#16⟩ ∧ (e.issues .wait ∨ e.issues .get) ∧ s.head = s.tail ∧ s.block = false) ∨
     (r = ⟨.consumer, 0x4000#16⟩ ∧ (e.issues (.init .both) ∨ e.issues (.ctrl .both))) ∨
     (∃ p w why, r = ⟨p, 0x5000#16⟩ ∧ e = .word p w ∧ decode p w = .illegal why) ∨
     (r = ⟨.producer, 0x6000#16⟩ ∧ (∃ b, e.issues (.push b)) ∧ s.rxEn = false))

/-- COUNT goes up by 1 with an accepted PUSH, down by 1 with a byte returned, to 0 with INIT (and reset), and is
otherwise unchanged (rule R36). -/
def Obligations.CountFollowsTheResponses : Prop :=
  ∀ (s t : State) (e : Event) (rest : List Event), s.Inv → step (s.facing e rest) = .next t →
    ((e.clears = true → t.count = 0) ∧
     ((∃ b, e.pushed = some b) → Answered t .producer 0x0000#16 → t.count = s.count + 1) ∧
     (e.takes s = true → (∃ w, Answered t .consumer w ∧ isOk w = true) → t.count + 1 = s.count) ∧
     (e.clears = false → ((∃ b, e.pushed = some b) → ¬Answered t .producer 0x0000#16) →
       (e.takes s = true → ∀ w, Answered t .consumer w → isOk w = false) → t.count = s.count))

/-- The FIFO law: in every run from reset, under every legal configuration and every schedule, the bytes returned are
a prefix of the bytes accepted, COUNT is how many are still to come, and those are the unread bytes in order
(rule R44). -/
def Obligations.BytesReturnInTheOrderTheyWereAccepted : Prop :=
  ∀ (c : Config) (es : List Event) (n : Nat) (t : State) (h : History), c.WellFormed →
    runHistory n ((State.powerOn c).setInputs es) ⟨[], []⟩ = some (t, h) →
    h.returned <+: h.accepted ∧ h.accepted.length = h.returned.length + t.count ∧
      h.accepted.map some = h.returned.map some ++ t.contents

/-- The FIFO law as an invariant of steps (rule R44): a history that fits the state still fits after any step, a step
with nothing scheduled included (the model's choice, notes/assumptions/3.md); the empty history fits the power-on state;
and where a history fits, the bytes returned are a prefix of those accepted and COUNT is the difference of their
numbers. -/
def Obligations.EveryStepKeepsTheFifoLaw : Prop :=
  (∀ (s t : State) (e : Event) (rest : List Event) (h : History), s.Inv → h.Fits s →
    step (s.facing e rest) = .next t → (h.record e s t).Fits t) ∧
  (∀ (s t : State) (h : History), s.Inv → h.Fits s → s.inputs = [] → step s = .next t → h.Fits t) ∧
  (∀ (c : Config) (es : List Event), c.WellFormed → History.Fits ⟨[], []⟩ ((State.powerOn c).setInputs es)) ∧
  (∀ (s : State) (h : History), h.Fits s →
    h.returned <+: h.accepted ∧ h.accepted.length = h.returned.length + s.count)

/-- Nothing observable at the ports depends on RESET_INDEX, on where the unread bytes stand, or on what the other slots
hold: two states that agree on the rest answer alike and stay so (rules R8, R29). -/
def Obligations.PortsCannotTellWhereBytesStand : Prop :=
  ∀ s t : State, s.Inv → t.Inv → PortEqual s t →
    match step s, step t with
    | .next s', .next t' => PortEqual s' t'
    | .refused a, .refused b => a = b
    | _, _ => False

/-- POP split into its parts, with any PUSHes between them (rule R42), is the atomic POP taken at its last part (w):
the byte read early at slot next(TAIL) is the one the atomic POP returns, and TAIL ends at that slot. This departs from
rule R42's own sentence, which puts the atomic POP at the first part (r1); that (w) is the right place is the model's
inference, notes/assumptions/15.md. -/
def Obligations.SplitPopIsAtomicAtItsWrite : Prop :=
  ∀ (s s₁ s₂ : State) (before after : List Byte), s.Inv → s.sync = .run → s.empty = false →
    pushAll before s = some s₁ → pushAll after s₁ = some s₂ →
    ∃ b, Memory.read s₁.data (nextIndex s.cfg.capacity s.tail) = some b ∧
      exec .pop s₂ = .next ((s₂.setTail (nextIndex s.cfg.capacity s.tail)).setResp (some ⟨.consumer, b.setWidth 16⟩))

/-- Rule R42's own sentence: the split POP leaves the buffer as an atomic POP taken at its first part (r1) does, the
PUSHes following it. (Expected to FAIL: in a full buffer a PUSH between (r1) and (w) is dropped, and one after an
atomic POP is not; notes/assumptions/15.md.) -/
def Obligations.SplitPopIsAtomicAtItsTest : Prop :=
  ∀ (s s₁ s₂ p u : State) (before after : List Byte), s.Inv → s.sync = .run → s.empty = false →
    pushAll before s = some s₁ → pushAll after s₁ = some s₂ →
    exec .pop s = .next p → pushAll (before ++ after) p = some u →
    SameBuffer (s₂.setTail (nextIndex s.cfg.capacity s.tail)) u

/-- A step in which nothing is scheduled moves no agent (the model's choice, notes/assumptions/3.md). -/
def Obligations.NothingMovesWithoutASchedule : Prop :=
  ∀ s : State, s.Ready → s.inputs = [] →
    ∃ t, step s = .next t ∧ t.resp = none ∧ SameBuffer s t ∧ SameWait s t ∧ SameSurroundings s t

/-! ## Infinite runs (rules R113, R129; their form is the model's choice, notes/assumptions/19.md and 20.md) -/

/-- Under weak fairness the consumer does not stand in PRESLEEP or in WOKEN for ever: it stays there until it takes its
own step, or a reset comes (rule R113). -/
def Obligations.AFairConsumerTakesItsOwnStep : Prop :=
  ∀ (states : Nat → State) (moves : Nat → Option Event), AgentRun states moves → WeaklyFair states moves →
    ∀ n, ((states n).sync = .presleep →
        ∃ m, n ≤ m ∧ (∀ k, n ≤ k → k ≤ m → (states k).sync = .presleep) ∧
          (moves m = some .sleep ∨ moves m = some .reset)) ∧
      ((states n).sync = .woken →
        ∃ m, n ≤ m ∧ (∀ k, n ≤ k → k ≤ m → (states k).sync = .woken) ∧
          (moves m = some .recheck ∨ moves m = some .reset))

/-- The premise about the sender that a claim of progress needs (rules R88, R113): in a fair run with receive on and no
reset, a wait is answered if a byte is there or comes and check and sleep are one step, and in any case if bytes keep
coming. -/
def Obligations.AFairWaitEndsWhenBytesCome : Prop :=
  ∀ (states : Nat → State) (moves : Nat → Option Event) (n : Nat),
    AgentRun states moves → WeaklyFair states moves →
    (states n).Inv → (states n).sync ≠ .run → (states n).rxEn = true → (∀ m, n ≤ m → moves m ≠ some .reset) →
    ((states n).cfg.atomicSleep = true ∧
        ((states n).empty = false ∨ ∃ m e b, n ≤ m ∧ moves m = some e ∧ e.pushed = some b) ∨
      ∀ k, ∃ m e b, k ≤ m ∧ moves m = some e ∧ e.pushed = some b) →
    ∃ m w, n ≤ m ∧ (states (m + 1)).resp = some ⟨.consumer, w⟩ ∧ (states (m + 1)).sync = .run

/-- No fairness obliges the sender or another line: from every state in SLEEP there is a fair infinite run in which the
consumer sleeps for ever, a legal run and no fault (rules R88, R129), on data too when its wake was lost (rule R122). -/
def Obligations.AFairRunMaySleepForEver : Prop :=
  ∀ s : State, s.Ready → s.sync = .sleep →
    ∃ (states : Nat → State) (moves : Nat → Option Event), AgentRun states moves ∧ WeaklyFair states moves ∧
      states 0 = s ∧ ∀ n, (states n).sync = .sleep ∧ (states n).pend = s.pend ∧ SameBuffer s (states n)
end

