-- ==== Sys2Proof/Laws/Decode.lean ====
section
/-! SUPPORT. The fields of a word as numbers, the opcode table row by row, and what decoding answers. -/

namespace Sys2Proof

/-! ## Fields as numbers (rule R50) -/

theorem Word.op_toNat (w : Word) : (Word.op w).toNat = w.toNat / 4096 := by
  have := w.isLt
  simp only [Word.op, BitVec.extractLsb'_toNat, Nat.shiftRight_eq_div_pow]; omega

theorem Word.blk_toNat (w : Word) : (Word.blk w).toNat = w.toNat / 1024 % 4 := by
  simp only [Word.blk, BitVec.extractLsb'_toNat, Nat.shiftRight_eq_div_pow]

theorem Word.data_toNat (w : Word) : (Word.data w).toNat = w.toNat % 256 := by
  simp [Word.data, BitVec.extractLsb'_toNat]

theorem Word.ofFields_toNat (op : BitVec 4) (blk rsv : BitVec 2) (d : Byte) :
    (Word.ofFields op blk rsv d).toNat = op.toNat * 4096 + blk.toNat * 1024 + rsv.toNat * 256 + d.toNat := by
  have h : Word.ofFields op blk rsv d = (op ++ blk ++ rsv ++ d : BitVec (4 + 2 + 2 + 8)) := rfl
  rw [h]
  simp only [BitVec.toNat_append]
  rw [← Nat.shiftLeft_add_eq_or_of_lt d.isLt, ← Nat.shiftLeft_add_eq_or_of_lt rsv.isLt,
    ← Nat.shiftLeft_add_eq_or_of_lt blk.isLt]
  simp only [Nat.shiftLeft_eq]
  omega

theorem Word.op_ofFields (op : BitVec 4) (blk rsv : BitVec 2) (d : Byte) :
    Word.op (Word.ofFields op blk rsv d) = op := by
  have := op.isLt; have := blk.isLt; have := rsv.isLt; have := d.isLt
  apply BitVec.eq_of_toNat_eq; rw [Word.op_toNat, Word.ofFields_toNat]; omega

theorem Word.blk_ofFields (op : BitVec 4) (blk rsv : BitVec 2) (d : Byte) :
    Word.blk (Word.ofFields op blk rsv d) = blk := by
  have := op.isLt; have := blk.isLt; have := rsv.isLt; have := d.isLt
  apply BitVec.eq_of_toNat_eq; rw [Word.blk_toNat, Word.ofFields_toNat]; omega

theorem Word.data_ofFields (op : BitVec 4) (blk rsv : BitVec 2) (d : Byte) :
    Word.data (Word.ofFields op blk rsv d) = d := by
  have := op.isLt; have := blk.isLt; have := rsv.isLt; have := d.isLt
  apply BitVec.eq_of_toNat_eq; rw [Word.data_toNat, Word.ofFields_toNat]; omega

/-! ## The unused bits of rule R54 as numbers -/

theorem and_0F00_eq_zero (w : Word) : w &&& 0x0F00#16 = 0#16 ↔ w.toNat / 256 % 16 = 0 := by
  have h (n : Nat) : n &&& 0x0F00 = ((n >>> 8) &&& 15) <<< 8 := by
    apply Nat.eq_of_testBit_eq; intro i
    rw [show (0x0F00 : Nat) = 15 <<< 8 from rfl]
    simp only [Nat.testBit_and, Nat.testBit_shiftLeft, Nat.testBit_shiftRight]
    by_cases h : 8 ≤ i
    · simp [h, Nat.add_sub_cancel' h]
    · simp [h]
  rw [← BitVec.toNat_inj, BitVec.toNat_and]
  simp only [BitVec.toNat_ofNat]
  rw [show 0x0F00 % 2 ^ 16 = 0x0F00 from rfl, h, show (15 : Nat) = 2 ^ 4 - 1 from rfl, Nat.and_two_pow_sub_one_eq_mod,
    Nat.shiftLeft_eq, Nat.shiftRight_eq_div_pow]
  omega

theorem and_0FFF_eq_zero (w : Word) : w &&& 0x0FFF#16 = 0#16 ↔ w.toNat % 4096 = 0 := by
  rw [← BitVec.toNat_inj, BitVec.toNat_and]
  simp only [BitVec.toNat_ofNat]
  rw [show 0x0FFF % 2 ^ 16 = 2 ^ 12 - 1 from rfl, Nat.and_two_pow_sub_one_eq_mod]

theorem and_03FF_eq_zero (w : Word) : w &&& 0x03FF#16 = 0#16 ↔ w.toNat % 1024 = 0 := by
  rw [← BitVec.toNat_inj, BitVec.toNat_and]
  simp only [BitVec.toNat_ofNat]
  rw [show 0x03FF % 2 ^ 16 = 2 ^ 10 - 1 from rfl, Nat.and_two_pow_sub_one_eq_mod]

/-! ## The opcode table -/

theorem Blk.ofBits_bits (b : Blk) : Blk.ofBits b.bits = b := by cases b <;> decide

theorem Blk.bits_ofBits (b : BitVec 2) : (Blk.ofBits b).bits = b := by revert b; decide

/-- No two rows have the same OP. -/
theorem opTable_ops_distinct : opTable.Pairwise (fun r s => r.op ≠ s.op) := by
  simp [opTable]

/-- An OP code is reserved, or is the OP of one of the nine rows (rule R51). -/
theorem op_cases (op : BitVec 4) :
    opRow op = none ∧ (op.toNat = 0 ∨ 10 ≤ op.toNat) ∨
    op = 0x1#4 ∨ op = 0x2#4 ∨ op = 0x3#4 ∨ op = 0x4#4 ∨ op = 0x5#4 ∨ op = 0x6#4 ∨ op = 0x7#4 ∨ op = 0x8#4 ∨ op = 0x9#4 := by
  revert op; decide

/-! ## What decoding answers -/

/-- The row of an OP code stands in the table under that code. -/
theorem opRow_some {op : BitVec 4} {r : OpRow} (h : opRow op = some r) : r ∈ opTable ∧ r.op = op :=
  ⟨List.mem_of_find?_eq_some h, by simpa using List.find?_some h⟩

/-- A word decodes to an operation when its row's port and unused bits fit, and then to what the row builds. -/
theorem decode_eq_instr {p : Port} {w : Word} {i : Instr} :
    decode p w = .instr i ↔ ∃ r, opRow (Word.op w) = some r ∧ r.port = p ∧ w &&& r.unused = 0#16 ∧ r.build w = i := by
  unfold decode
  cases hr : opRow (Word.op w) with
  | none => simp
  | some r =>
    by_cases hp : r.port = p <;> by_cases hu : w &&& r.unused = 0#16 <;> simp [hp, hu]

/-- A word that decodes to an operation came on that operation's port (rule R55). -/
theorem decode_port {p : Port} {w : Word} {i : Instr} (h : decode p w = .instr i) : i.port = p := by
  obtain ⟨r, hr, rfl, -, rfl⟩ := decode_eq_instr.1 h
  have := (opRow_some hr).1
  simp only [opTable, List.mem_cons, List.not_mem_nil, or_false] at this
  rcases this with rfl | rfl | rfl | rfl | rfl | rfl | rfl | rfl | rfl <;> rfl

/-- Each operation's word decodes to it on its own port. -/
theorem decode_encode (i : Instr) : decode i.port (encode i) = .instr i := by
  cases i with
  | push b =>
    refine decode_eq_instr.2 ⟨_, by rw [encode, Word.op_ofFields]; rfl, rfl, ?_, ?_⟩
    · rw [encode, and_0F00_eq_zero, Word.ofFields_toNat]
      have := b.isLt
      simp only [BitVec.toNat_ofNat]; omega
    · simp only [encode, Word.data_ofFields]
  | init blk => cases blk <;> decide
  | ctrl blk => cases blk <;> decide
  | pop => decide
  | isempty => decide
  | wait => decide
  | get => decide
  | close => decide
  | status => decide

end Sys2Proof
end

