-- ==== Sys2Proof/Laws/State.lean ====
section
/-! SUPPORT. Each register write, field by field: what it sets and what it leaves. -/

namespace Sys2Proof.Machine

@[simp] theorem State.setData_cfg (s : State) (v : Memory) : (s.setData v).cfg = s.cfg := rfl
@[simp] theorem State.setData_data (s : State) (v : Memory) : (s.setData v).data = v := rfl
@[simp] theorem State.setData_head (s : State) (v : Memory) : (s.setData v).head = s.head := rfl
@[simp] theorem State.setData_tail (s : State) (v : Memory) : (s.setData v).tail = s.tail := rfl
@[simp] theorem State.setData_ctrl (s : State) (v : Memory) : (s.setData v).ctrl = s.ctrl := rfl
@[simp] theorem State.setData_sync (s : State) (v : Memory) : (s.setData v).sync = s.sync := rfl
@[simp] theorem State.setData_pend (s : State) (v : Memory) : (s.setData v).pend = s.pend := rfl
@[simp] theorem State.setData_inputs (s : State) (v : Memory) : (s.setData v).inputs = s.inputs := rfl
@[simp] theorem State.setData_resp (s : State) (v : Memory) : (s.setData v).resp = s.resp := rfl

@[simp] theorem State.setHead_cfg (s : State) (v : Nat) : (s.setHead v).cfg = s.cfg := rfl
@[simp] theorem State.setHead_data (s : State) (v : Nat) : (s.setHead v).data = s.data := rfl
@[simp] theorem State.setHead_head (s : State) (v : Nat) : (s.setHead v).head = v := rfl
@[simp] theorem State.setHead_tail (s : State) (v : Nat) : (s.setHead v).tail = s.tail := rfl
@[simp] theorem State.setHead_ctrl (s : State) (v : Nat) : (s.setHead v).ctrl = s.ctrl := rfl
@[simp] theorem State.setHead_sync (s : State) (v : Nat) : (s.setHead v).sync = s.sync := rfl
@[simp] theorem State.setHead_pend (s : State) (v : Nat) : (s.setHead v).pend = s.pend := rfl
@[simp] theorem State.setHead_inputs (s : State) (v : Nat) : (s.setHead v).inputs = s.inputs := rfl
@[simp] theorem State.setHead_resp (s : State) (v : Nat) : (s.setHead v).resp = s.resp := rfl

@[simp] theorem State.setTail_cfg (s : State) (v : Nat) : (s.setTail v).cfg = s.cfg := rfl
@[simp] theorem State.setTail_data (s : State) (v : Nat) : (s.setTail v).data = s.data := rfl
@[simp] theorem State.setTail_head (s : State) (v : Nat) : (s.setTail v).head = s.head := rfl
@[simp] theorem State.setTail_tail (s : State) (v : Nat) : (s.setTail v).tail = v := rfl
@[simp] theorem State.setTail_ctrl (s : State) (v : Nat) : (s.setTail v).ctrl = s.ctrl := rfl
@[simp] theorem State.setTail_sync (s : State) (v : Nat) : (s.setTail v).sync = s.sync := rfl
@[simp] theorem State.setTail_pend (s : State) (v : Nat) : (s.setTail v).pend = s.pend := rfl
@[simp] theorem State.setTail_inputs (s : State) (v : Nat) : (s.setTail v).inputs = s.inputs := rfl
@[simp] theorem State.setTail_resp (s : State) (v : Nat) : (s.setTail v).resp = s.resp := rfl

@[simp] theorem State.setCtrl_cfg (s : State) (v : BitVec 8) : (s.setCtrl v).cfg = s.cfg := rfl
@[simp] theorem State.setCtrl_data (s : State) (v : BitVec 8) : (s.setCtrl v).data = s.data := rfl
@[simp] theorem State.setCtrl_head (s : State) (v : BitVec 8) : (s.setCtrl v).head = s.head := rfl
@[simp] theorem State.setCtrl_tail (s : State) (v : BitVec 8) : (s.setCtrl v).tail = s.tail := rfl
@[simp] theorem State.setCtrl_ctrl (s : State) (v : BitVec 8) : (s.setCtrl v).ctrl = v := rfl
@[simp] theorem State.setCtrl_sync (s : State) (v : BitVec 8) : (s.setCtrl v).sync = s.sync := rfl
@[simp] theorem State.setCtrl_pend (s : State) (v : BitVec 8) : (s.setCtrl v).pend = s.pend := rfl
@[simp] theorem State.setCtrl_inputs (s : State) (v : BitVec 8) : (s.setCtrl v).inputs = s.inputs := rfl
@[simp] theorem State.setCtrl_resp (s : State) (v : BitVec 8) : (s.setCtrl v).resp = s.resp := rfl

@[simp] theorem State.setSync_cfg (s : State) (v : Sync) : (s.setSync v).cfg = s.cfg := rfl
@[simp] theorem State.setSync_data (s : State) (v : Sync) : (s.setSync v).data = s.data := rfl
@[simp] theorem State.setSync_head (s : State) (v : Sync) : (s.setSync v).head = s.head := rfl
@[simp] theorem State.setSync_tail (s : State) (v : Sync) : (s.setSync v).tail = s.tail := rfl
@[simp] theorem State.setSync_ctrl (s : State) (v : Sync) : (s.setSync v).ctrl = s.ctrl := rfl
@[simp] theorem State.setSync_sync (s : State) (v : Sync) : (s.setSync v).sync = v := rfl
@[simp] theorem State.setSync_pend (s : State) (v : Sync) : (s.setSync v).pend = s.pend := rfl
@[simp] theorem State.setSync_inputs (s : State) (v : Sync) : (s.setSync v).inputs = s.inputs := rfl
@[simp] theorem State.setSync_resp (s : State) (v : Sync) : (s.setSync v).resp = s.resp := rfl

@[simp] theorem State.setPend_cfg (s : State) (v : Pend) : (s.setPend v).cfg = s.cfg := rfl
@[simp] theorem State.setPend_data (s : State) (v : Pend) : (s.setPend v).data = s.data := rfl
@[simp] theorem State.setPend_head (s : State) (v : Pend) : (s.setPend v).head = s.head := rfl
@[simp] theorem State.setPend_tail (s : State) (v : Pend) : (s.setPend v).tail = s.tail := rfl
@[simp] theorem State.setPend_ctrl (s : State) (v : Pend) : (s.setPend v).ctrl = s.ctrl := rfl
@[simp] theorem State.setPend_sync (s : State) (v : Pend) : (s.setPend v).sync = s.sync := rfl
@[simp] theorem State.setPend_pend (s : State) (v : Pend) : (s.setPend v).pend = v := rfl
@[simp] theorem State.setPend_inputs (s : State) (v : Pend) : (s.setPend v).inputs = s.inputs := rfl
@[simp] theorem State.setPend_resp (s : State) (v : Pend) : (s.setPend v).resp = s.resp := rfl

@[simp] theorem State.setInputs_cfg (s : State) (v : List Event) : (s.setInputs v).cfg = s.cfg := rfl
@[simp] theorem State.setInputs_data (s : State) (v : List Event) : (s.setInputs v).data = s.data := rfl
@[simp] theorem State.setInputs_head (s : State) (v : List Event) : (s.setInputs v).head = s.head := rfl
@[simp] theorem State.setInputs_tail (s : State) (v : List Event) : (s.setInputs v).tail = s.tail := rfl
@[simp] theorem State.setInputs_ctrl (s : State) (v : List Event) : (s.setInputs v).ctrl = s.ctrl := rfl
@[simp] theorem State.setInputs_sync (s : State) (v : List Event) : (s.setInputs v).sync = s.sync := rfl
@[simp] theorem State.setInputs_pend (s : State) (v : List Event) : (s.setInputs v).pend = s.pend := rfl
@[simp] theorem State.setInputs_inputs (s : State) (v : List Event) : (s.setInputs v).inputs = v := rfl
@[simp] theorem State.setInputs_resp (s : State) (v : List Event) : (s.setInputs v).resp = s.resp := rfl

@[simp] theorem State.setResp_cfg (s : State) (v : Option Response) : (s.setResp v).cfg = s.cfg := rfl
@[simp] theorem State.setResp_data (s : State) (v : Option Response) : (s.setResp v).data = s.data := rfl
@[simp] theorem State.setResp_head (s : State) (v : Option Response) : (s.setResp v).head = s.head := rfl
@[simp] theorem State.setResp_tail (s : State) (v : Option Response) : (s.setResp v).tail = s.tail := rfl
@[simp] theorem State.setResp_ctrl (s : State) (v : Option Response) : (s.setResp v).ctrl = s.ctrl := rfl
@[simp] theorem State.setResp_sync (s : State) (v : Option Response) : (s.setResp v).sync = s.sync := rfl
@[simp] theorem State.setResp_pend (s : State) (v : Option Response) : (s.setResp v).pend = s.pend := rfl
@[simp] theorem State.setResp_inputs (s : State) (v : Option Response) : (s.setResp v).inputs = s.inputs := rfl
@[simp] theorem State.setResp_resp (s : State) (v : Option Response) : (s.setResp v).resp = v := rfl

@[simp] theorem State.respond_cfg (s : State) (p : Port) (rc : Rc) (d : Byte) :
    (s.respond p rc d).cfg = s.cfg := rfl
@[simp] theorem State.respond_data (s : State) (p : Port) (rc : Rc) (d : Byte) :
    (s.respond p rc d).data = s.data := rfl
@[simp] theorem State.respond_head (s : State) (p : Port) (rc : Rc) (d : Byte) :
    (s.respond p rc d).head = s.head := rfl
@[simp] theorem State.respond_tail (s : State) (p : Port) (rc : Rc) (d : Byte) :
    (s.respond p rc d).tail = s.tail := rfl
@[simp] theorem State.respond_ctrl (s : State) (p : Port) (rc : Rc) (d : Byte) :
    (s.respond p rc d).ctrl = s.ctrl := rfl
@[simp] theorem State.respond_sync (s : State) (p : Port) (rc : Rc) (d : Byte) :
    (s.respond p rc d).sync = s.sync := rfl
@[simp] theorem State.respond_pend (s : State) (p : Port) (rc : Rc) (d : Byte) :
    (s.respond p rc d).pend = s.pend := rfl
@[simp] theorem State.respond_inputs (s : State) (p : Port) (rc : Rc) (d : Byte) :
    (s.respond p rc d).inputs = s.inputs := rfl
@[simp] theorem State.respond_resp (s : State) (p : Port) (rc : Rc) (d : Byte) :
    (s.respond p rc d).resp = some ⟨p, responseWord rc d⟩ := rfl

@[simp] theorem State.silent_cfg (s : State) : s.silent.cfg = s.cfg := rfl
@[simp] theorem State.silent_data (s : State) : s.silent.data = s.data := rfl
@[simp] theorem State.silent_head (s : State) : s.silent.head = s.head := rfl
@[simp] theorem State.silent_tail (s : State) : s.silent.tail = s.tail := rfl
@[simp] theorem State.silent_ctrl (s : State) : s.silent.ctrl = s.ctrl := rfl
@[simp] theorem State.silent_sync (s : State) : s.silent.sync = s.sync := rfl
@[simp] theorem State.silent_pend (s : State) : s.silent.pend = s.pend := rfl
@[simp] theorem State.silent_inputs (s : State) : s.silent.inputs = s.inputs := rfl
@[simp] theorem State.silent_resp (s : State) : s.silent.resp = none := rfl

@[simp] theorem State.endWait_cfg (s : State) : s.endWait.cfg = s.cfg := rfl
@[simp] theorem State.endWait_data (s : State) : s.endWait.data = s.data := rfl
@[simp] theorem State.endWait_head (s : State) : s.endWait.head = s.head := rfl
@[simp] theorem State.endWait_tail (s : State) : s.endWait.tail = s.tail := rfl
@[simp] theorem State.endWait_ctrl (s : State) : s.endWait.ctrl = s.ctrl := rfl
@[simp] theorem State.endWait_sync (s : State) : s.endWait.sync = .run := rfl
@[simp] theorem State.endWait_pend (s : State) : s.endWait.pend = .none := rfl
@[simp] theorem State.endWait_inputs (s : State) : s.endWait.inputs = s.inputs := rfl
@[simp] theorem State.endWait_resp (s : State) : s.endWait.resp = s.resp := rfl

/-- A wake event by comparison. -/
theorem Sync.wake_eq (x : Sync) : x.wake = if x = .sleep then .woken else x := by cases x <;> rfl

@[simp] theorem State.wake_cfg (s : State) : s.wake.cfg = s.cfg := rfl
@[simp] theorem State.wake_data (s : State) : s.wake.data = s.data := rfl
@[simp] theorem State.wake_head (s : State) : s.wake.head = s.head := rfl
@[simp] theorem State.wake_tail (s : State) : s.wake.tail = s.tail := rfl
@[simp] theorem State.wake_ctrl (s : State) : s.wake.ctrl = s.ctrl := rfl
@[simp] theorem State.wake_sync (s : State) : s.wake.sync = s.sync.wake := rfl
@[simp] theorem State.wake_pend (s : State) : s.wake.pend = s.pend := rfl
@[simp] theorem State.wake_inputs (s : State) : s.wake.inputs = s.inputs := rfl
@[simp] theorem State.wake_resp (s : State) : s.wake.resp = s.resp := rfl

@[simp] theorem State.powerOn_cfg (c : Config) : (State.powerOn c).cfg = c := rfl
@[simp] theorem State.powerOn_data (c : Config) : (State.powerOn c).data = [] := rfl
@[simp] theorem State.powerOn_head (c : Config) : (State.powerOn c).head = c.resetIndex := rfl
@[simp] theorem State.powerOn_tail (c : Config) : (State.powerOn c).tail = c.resetIndex := rfl
@[simp] theorem State.powerOn_ctrl (c : Config) : (State.powerOn c).ctrl = 0#8 := rfl
@[simp] theorem State.powerOn_sync (c : Config) : (State.powerOn c).sync = .run := rfl
@[simp] theorem State.powerOn_pend (c : Config) : (State.powerOn c).pend = .none := rfl
@[simp] theorem State.powerOn_inputs (c : Config) : (State.powerOn c).inputs = [] := rfl
@[simp] theorem State.powerOn_resp (c : Config) : (State.powerOn c).resp = none := rfl

/-- Two states with the same fields are the same state. -/
theorem State.eq_of_fields {s t : State} (h1 : s.cfg = t.cfg) (h2 : s.data = t.data) (h3 : s.head = t.head)
    (h4 : s.tail = t.tail) (h5 : s.ctrl = t.ctrl) (h6 : s.sync = t.sync) (h7 : s.pend = t.pend)
    (h8 : s.inputs = t.inputs) (h9 : s.resp = t.resp) : s = t := by
  cases s; cases t; simp_all

end Sys2Proof.Machine
end

