-- ==== Sys2Proof/Laws/Index.lean ====
section
/-! SUPPORT. Index arithmetic: the step `next` and the distance between two indices, as rules R24, R34 and R35 use
them, in a form linear arithmetic can work with. -/

namespace Sys2Proof.Machine

theorem nextIndex_legal {c i : Nat} (hc : 3 ≤ c) (h : legalIndex c i) : legalIndex c (nextIndex c i) := by
  unfold nextIndex legalIndex at *; split <;> omega

/-- The distance by comparison, for legal indices. -/
theorem indexDistance_eq {c a b : Nat} (hc : 3 ≤ c) (ha : legalIndex c a) (hb : legalIndex c b) :
    indexDistance c a b = if b ≤ a then a - b else a + (c - 1) - b := by
  unfold indexDistance legalIndex at *
  split
  · rw [Int.emod_eq_of_lt (by omega) (by omega)]; omega
  · rw [← Int.add_emod_right, Int.emod_eq_of_lt (by omega) (by omega)]; omega

theorem indexDistance_self {c a : Nat} (hc : 3 ≤ c) (ha : legalIndex c a) : indexDistance c a a = 0 := by
  rw [indexDistance_eq hc ha ha]; simp

theorem indexDistance_lt {c a b : Nat} (hc : 3 ≤ c) (ha : legalIndex c a) (hb : legalIndex c b) :
    indexDistance c a b < c - 1 := by
  rw [indexDistance_eq hc ha hb]; unfold legalIndex at *; split <;> omega

theorem indexDistance_eq_zero {c a b : Nat} (hc : 3 ≤ c) (ha : legalIndex c a) (hb : legalIndex c b) :
    indexDistance c a b = 0 ↔ a = b := by
  rw [indexDistance_eq hc ha hb]; unfold legalIndex at *; split <;> omega

/-- Moving the start one step on shortens the distance by one. -/
theorem indexDistance_next_left {c a b : Nat} (hc : 3 ≤ c) (ha : legalIndex c a) (hb : legalIndex c b) (hne : a ≠ b) :
    indexDistance c (nextIndex c a) b + 1 = indexDistance c a b := by
  rw [indexDistance_eq hc (nextIndex_legal hc ha) hb, indexDistance_eq hc ha hb]
  unfold nextIndex legalIndex at *; split <;> split <;> split <;> omega

/-- Moving the end one step on lengthens the distance by one, unless it meets the start. -/
theorem indexDistance_next_right {c a b : Nat} (hc : 3 ≤ c) (ha : legalIndex c a) (hb : legalIndex c b)
    (hne : nextIndex c b ≠ a) : indexDistance c a (nextIndex c b) = indexDistance c a b + 1 := by
  rw [indexDistance_eq hc ha (nextIndex_legal hc hb), indexDistance_eq hc ha hb]
  unfold nextIndex legalIndex at *; split at hne <;> split <;> split <;> split <;> omega

/-- Of two legal indices, equal distances from one start mean equal indices. -/
theorem indexDistance_inj {c a b d : Nat} (hc : 3 ≤ c) (ha : legalIndex c a) (hb : legalIndex c b) (hd : legalIndex c d)
    (h : indexDistance c a b = indexDistance c a d) : b = d := by
  rw [indexDistance_eq hc ha hb, indexDistance_eq hc ha hd] at h
  unfold legalIndex at *; split at h <;> split at h <;> omega

/-- The one legal index at distance C-2 is the one `next` leads from to the start (rule R24: FULL). -/
theorem indexDistance_full {c a b : Nat} (hc : 3 ≤ c) (ha : legalIndex c a) (hb : legalIndex c b) :
    indexDistance c a b = c - 2 ↔ nextIndex c b = a := by
  rw [indexDistance_eq hc ha hb]
  unfold nextIndex legalIndex at *; split <;> split <;> omega

theorem nextIndex_inj {c i j : Nat} (hi : legalIndex c i) (hj : legalIndex c j)
    (h : nextIndex c i = nextIndex c j) : i = j := by
  unfold nextIndex legalIndex at *; split at h <;> split at h <;> omega

theorem nextIndex_ne {c i : Nat} (hc : 3 ≤ c) (h : legalIndex c i) : nextIndex c i ≠ i := by
  unfold nextIndex legalIndex at *; split <;> omega

theorem nextIter_legal {c : Nat} (hc : 3 ≤ c) (k : Nat) {i : Nat} (h : legalIndex c i) : legalIndex c (nextIter c k i) := by
  induction k generalizing i with
  | zero => exact h
  | succ k ih => exact ih (nextIndex_legal hc h)

/-- The last step of `next^(k+1)` can be taken out. -/
theorem nextIter_succ (c k i : Nat) : nextIter c (k + 1) i = nextIndex c (nextIter c k i) := by
  induction k generalizing i with
  | zero => rfl
  | succ k ih => exact ih (nextIndex c i)

/-- `next` taken as often as the distance leads from the start to the end (rule R24). -/
theorem nextIter_distance {c a b : Nat} (hc : 3 ≤ c) (ha : legalIndex c a) (hb : legalIndex c b) :
    nextIter c (indexDistance c a b) a = b := by
  generalize hn : indexDistance c a b = n
  induction n generalizing a with
  | zero => exact (indexDistance_eq_zero hc ha hb).1 hn
  | succ n ih =>
    have hne : a ≠ b := fun e => by rw [(indexDistance_eq_zero hc ha hb).2 e] at hn; omega
    have := indexDistance_next_left hc ha hb hne
    exact ih (nextIndex_legal hc ha) (by omega)

end Sys2Proof.Machine
end

