-- ==== Sys2Proof/Laws/Memory.lean ====
section
/-! SUPPORT. DATA as a list of cells: what a write changes, that it keeps the canonical form, and that the canonical
form makes equal contents equal data. -/

namespace Sys2Proof.Machine

@[simp] theorem Memory.read_nil (a : Nat) : Memory.read [] a = none := rfl

theorem Memory.read_cons (k : Nat) (v : Byte) (m : Memory) (a : Nat) :
    Memory.read ((k, v) :: m) a = if k = a then some v else Memory.read m a := rfl

@[simp] theorem Memory.wf_nil : Memory.wf [] = true := rfl

theorem Memory.wf_cons (k : Nat) (v : Byte) (m : Memory) :
    Memory.wf ((k, v) :: m) = true ↔ (∀ x ∈ m, k < x.1) ∧ Memory.wf m = true := by
  simp [Memory.wf, List.pairwise_cons]

/-- The indices of a storage are those it reads a value at. -/
theorem Memory.mem_of_read {m : Memory} {a : Nat} {v : Byte} (h : Memory.read m a = some v) : (a, v) ∈ m := by
  induction m with
  | nil => simp at h
  | cons x m ih =>
    obtain ⟨k, u⟩ := x
    rw [Memory.read_cons] at h
    split at h
    · simp_all
    · exact List.mem_cons_of_mem _ (ih h)

/-- Below every index of a storage nothing is read. -/
theorem Memory.read_of_lt {m : Memory} {a : Nat} (h : ∀ x ∈ m, a < x.1) : Memory.read m a = none := by
  cases hr : Memory.read m a with
  | none => rfl
  | some v => exact absurd (h _ (Memory.mem_of_read hr)) (by simp)

theorem Memory.mem_write {m : Memory} {a : Nat} {v : Byte} {x : Host.Cell} (h : x ∈ Memory.write m a v) :
    x = (a, v) ∨ x ∈ m := by
  induction m with
  | nil => simpa [Memory.write] using h
  | cons y m ih =>
    obtain ⟨k, u⟩ := y
    simp only [Memory.write] at h
    split at h
    · simpa using h
    · split at h
      · rcases List.mem_cons.1 h with h | h
        · exact .inl h
        · exact .inr (List.mem_cons_of_mem _ h)
      · rcases List.mem_cons.1 h with h | h
        · exact .inr (by simp [h])
        · exact (ih h).imp_right (List.mem_cons_of_mem _)

/-- A write keeps the canonical form. -/
theorem Memory.write_wf {m : Memory} (a : Nat) (v : Byte) (h : Memory.wf m = true) :
    Memory.wf (Memory.write m a v) = true := by
  induction m with
  | nil => simp [Memory.write, Memory.wf]
  | cons y m ih =>
    obtain ⟨k, u⟩ := y
    obtain ⟨hk, hm⟩ := (Memory.wf_cons k u m).1 h
    simp only [Memory.write]
    split
    · rename_i hlt
      refine (Memory.wf_cons _ _ _).2 ⟨fun x hx => ?_, h⟩
      rcases List.mem_cons.1 hx with rfl | hx
      · exact hlt
      · exact lt_trans hlt (hk x hx)
    · split
      · rename_i heq
        subst heq
        exact (Memory.wf_cons _ _ _).2 ⟨hk, hm⟩
      · refine (Memory.wf_cons _ _ _).2 ⟨fun x hx => ?_, ih hm⟩
        rcases Memory.mem_write hx with rfl | hx
        · simp; omega
        · exact hk x hx

/-- A read of the slot just written gives the value written. -/
@[simp] theorem Memory.read_write_same (m : Memory) (a : Nat) (v : Byte) : Memory.read (Memory.write m a v) a = some v := by
  induction m with
  | nil => simp [Memory.write, Memory.read]
  | cons y m ih =>
    obtain ⟨k, u⟩ := y
    simp only [Memory.write]
    split
    · simp [Memory.read_cons]
    · split
      · simp [Memory.read_cons]
      · rename_i hne
        rw [Memory.read_cons, if_neg (fun e => hne e.symm), ih]

/-- A write leaves every other slot alone. -/
theorem Memory.read_write_other (m : Memory) {a b : Nat} (v : Byte) (h : b ≠ a) :
    Memory.read (Memory.write m a v) b = Memory.read m b := by
  induction m with
  | nil => simp [Memory.write, Memory.read, Ne.symm h]
  | cons y m ih =>
    obtain ⟨k, u⟩ := y
    simp only [Memory.write]
    split
    · simp [Memory.read_cons, Ne.symm h]
    · split
      · rename_i heq
        subst heq
        simp [Memory.read_cons, Ne.symm h]
      · simp only [Memory.read_cons, ih]

/-- Two storages in canonical form that read alike are the same list. -/
theorem Memory.eq_of_read {m n : Memory} (hm : Memory.wf m = true) (hn : Memory.wf n = true)
    (h : ∀ a, Memory.read m a = Memory.read n a) : m = n := by
  induction m generalizing n with
  | nil =>
    cases n with
    | nil => rfl
    | cons y n =>
      obtain ⟨l, v⟩ := y
      simpa [Memory.read_cons] using h l
  | cons x m ih =>
    obtain ⟨k, u⟩ := x
    obtain ⟨hk, hm'⟩ := (Memory.wf_cons k u m).1 hm
    cases n with
    | nil => simpa [Memory.read_cons] using h k
    | cons y n =>
      obtain ⟨l, v⟩ := y
      obtain ⟨hl, hn'⟩ := (Memory.wf_cons l v n).1 hn
      have hkl : k = l := by
        by_contra hne
        rcases Nat.lt_or_gt_of_ne hne with hlt | hgt
        · have := h k
          rw [Memory.read_cons, if_pos rfl, Memory.read_cons, if_neg (Ne.symm hne),
            Memory.read_of_lt (fun x hx => lt_trans hlt (hl x hx))] at this
          simp at this
        · have := h l
          rw [Memory.read_cons, if_neg hne, Memory.read_cons, if_pos rfl,
            Memory.read_of_lt (fun x hx => lt_trans hgt (hk x hx))] at this
          simp at this
      subst hkl
      have huv : u = v := by simpa [Memory.read_cons] using h k
      subst huv
      refine congrArg _ (ih hm' hn' fun a => ?_)
      by_cases ha : k = a
      · subst ha
        rw [Memory.read_of_lt hk, Memory.read_of_lt hl]
      · simpa [Memory.read_cons, ha] using h a

end Sys2Proof.Machine
end

