-- ==== Sys2Proof/Laws/Ops.lean ====
section
/-! SUPPORT. What each shared operation can do: when it answers a next state, and with which. -/

namespace Sys2Proof.Machine

/-! ## The guard -/

/-- A legal configuration has at least three slots and RESET_INDEX in range (rules R5, R8). -/
theorem Config.wf_bounds {c : Config} (h : c.WellFormed) : 3 ≤ c.capacity ∧ legalIndex c.capacity c.resetIndex := by
  simp only [Config.WellFormed, Config.problem] at h
  repeat' (split at h <;> try contradiction)
  simp only [legalIndex]; omega

theorem State.Ready.three_le {s : State} (h : s.Ready) : 3 ≤ s.cfg.capacity := (Config.wf_bounds h.config).1

/-- The guard lets a ready state through. -/
theorem guarded_of_ready {s : State} (h : s.Ready) (k : State → Host.Outcome State Fault Refusal) :
    guarded s k = k s := by
  simp only [guarded, h.config, if_pos h.index]

/-- The guard answers a next state only from a ready state, and then the one its transition answers. -/
theorem guarded_next {s t : State} {k : State → Host.Outcome State Fault Refusal} (h : guarded s k = .next t) :
    s.Ready ∧ k s = .next t := by
  unfold guarded at h
  split at h
  · cases h
  · split at h
    · exact ⟨⟨‹_›, ‹_›⟩, h⟩
    · cases h

/-- The producer port accepts a word in every ready state (rule R70). -/
theorem accepted_producer {s : State} (h : s.Ready) (k : State → Host.Outcome State Fault Refusal) :
    accepted .producer s k = k s := by
  simp [accepted, guarded_of_ready h]

/-- The consumer port accepts a word in every quiescent state (rule R76). -/
theorem accepted_consumer {s : State} (h : s.Quiescent) (k : State → Host.Outcome State Fault Refusal) :
    accepted .consumer s k = k s := by
  simp [accepted, guarded_of_ready h.toReady, h.run]

/-- A word is answered with a next state only in a ready state, on the consumer port only when SYNC = RUN. -/
theorem accepted_next {p : Port} {s t : State} {k : State → Host.Outcome State Fault Refusal}
    (h : accepted p s k = .next t) : s.Ready ∧ (p = .consumer → s.sync = .run) ∧ k s = .next t := by
  obtain ⟨hr, h⟩ := guarded_next h
  split at h
  · cases h
  · rename_i hp
    exact ⟨hr, fun e => by_contra fun hne => hp ⟨e, hne⟩, h⟩

/-! ## Access to DATA -/

/-- A store to a legal slot goes through. -/
theorem storeSlot_legal {s : State} {i : Nat} (h : legalIndex s.cfg.capacity i) (v : Byte)
    (k : State → Host.Outcome State Fault Refusal) :
    storeSlot s i v k = k (s.setData (Memory.write s.data i v)) := if_pos h

/-- A store answers a next state only for a legal slot. -/
theorem storeSlot_next {s t : State} {i : Nat} {v : Byte} {k : State → Host.Outcome State Fault Refusal}
    (h : storeSlot s i v k = .next t) :
    legalIndex s.cfg.capacity i ∧ k (s.setData (Memory.write s.data i v)) = .next t := by
  unfold storeSlot at h
  split at h
  · exact ⟨‹_›, h⟩
  · cases h

/-- On a buffer that holds data, the slot POP reads is the first of the unread range (rule R28). -/
theorem unread_next_tail {s : State} (h : s.Ready) (hne : s.empty = false) :
    s.unread (nextIndex s.cfg.capacity s.tail) := by
  have hc := h.three_le
  obtain ⟨hh, ht⟩ := h.index
  have hn := nextIndex_legal hc ht
  have hht : s.tail ≠ s.head := fun e => by simp [State.empty, e] at hne
  have h1 := indexDistance_next_left hc ht hh hht
  have h2 := indexDistance_next_right hc ht ht (nextIndex_ne hc ht)
  rw [indexDistance_self hc ht] at h2
  refine ⟨hn, by omega, ?_⟩
  rw [h2, State.count]; omega

/-- On a buffer that holds data, the slot POP reads gives the byte DATA holds there. -/
theorem readSlot_next_tail {s : State} (h : s.Ready) (hne : s.empty = false) :
    s.readSlot (nextIndex s.cfg.capacity s.tail) = Memory.read s.data (nextIndex s.cfg.capacity s.tail) :=
  if_pos (unread_next_tail h hne)

/-- A pop goes through where the oldest slot holds a byte. -/
theorem takeByte_some {s : State} {b : Byte} (h : s.Ready) (hne : s.empty = false)
    (hb : Memory.read s.data (nextIndex s.cfg.capacity s.tail) = some b)
    (k : Byte → State → Host.Outcome State Fault Refusal) :
    takeByte s k = k b (s.setTail (nextIndex s.cfg.capacity s.tail)) := by
  simp only [takeByte, readSlot_next_tail h hne, hb]

/-- A pop answers a next state only with the byte DATA holds in the slot after TAIL. -/
theorem takeByte_next {s t : State} {k : Byte → State → Host.Outcome State Fault Refusal}
    (h : takeByte s k = .next t) :
    ∃ b, Memory.read s.data (nextIndex s.cfg.capacity s.tail) = some b ∧
      k b (s.setTail (nextIndex s.cfg.capacity s.tail)) = .next t := by
  unfold takeByte at h
  split at h
  · rename_i b hb
    refine ⟨b, ?_, h⟩
    unfold State.readSlot at hb
    split at hb
    · exact hb
    · cases hb
  · cases h

/-! ## The synchronizer -/

/-- A completion answers OK, with SYNC at RUN and PEND at NONE, and for GET pops the oldest byte (rules R84, R86). -/
theorem complete_next {op : Pend} {s t : State} (h : complete op s = .next t) :
    (op = .wait ∧ t = s.endWait.respond .consumer .ok 0x00#8) ∨
    (op = .get ∧ ∃ b, Memory.read s.data (nextIndex s.cfg.capacity s.tail) = some b ∧
      t = (s.setTail (nextIndex s.cfg.capacity s.tail)).endWait.respond .consumer .ok b) := by
  cases op with
  | none => cases h
  | wait => exact .inl ⟨rfl, by cases h; rfl⟩
  | get =>
    simp only [complete] at h
    obtain ⟨b, hb, h⟩ := takeByte_next h
    exact .inr ⟨rfl, b, hb, by cases h; rfl⟩

/-- The check completes on a buffer that holds data, and otherwise answers WOULD_BLOCK or sleeps (rule R77). -/
theorem check_next {op : Pend} {s t : State} (h : check op s = .next t) :
    (s.empty = false ∧ complete op s = .next t) ∨
    (s.empty = true ∧ s.block = false ∧ t = s.respond .consumer .wouldBlock 0x00#8) ∨
    (s.empty = true ∧ s.block = true ∧ t = ((s.setPend op).setSync (sleepState s.cfg)).silent) := by
  unfold check at h
  split at h
  · exact .inl ⟨‹_›, h⟩
  · split at h
    · exact .inr (.inl ⟨by simp_all, ‹_›, by cases h; rfl⟩)
    · exact .inr (.inr ⟨by simp_all, by simp_all, by cases h; rfl⟩)

end Sys2Proof.Machine
end

