-- ==== Sys2Proof/Laws/Step.lean ====
section
/-! SUPPORT. What a step can do, said once: `Taken s e t` lists every way a transition `e` can take `s` to `t`, and
`step_facing_next` says that a step is always one of them. -/

namespace Sys2Proof.Machine

/-- The ways a transition takes a ready state (its schedule already moved past it) to the next. -/
inductive Taken (s : State) : Event → State → Prop where
  | illegal (p : Port) (w : Word) (why : IllegalWord) (hd : decode p w = .illegal why)
      (hp : p = .consumer → s.sync = .run) : Taken s (.word p w) (s.respond p .illegal 0x00#8)
  | rxOff (e : Event) (b : Byte) (he : e.issues (.push b)) (hx : s.rxEn = false) :
      Taken s e (s.respond .producer .rxOff 0x00#8)
  | dropped (e : Event) (b : Byte) (he : e.issues (.push b)) (hx : s.rxEn = true) (hf : s.full = true) :
      Taken s e ((s.respond .producer .dropped 0x00#8).wake)
  | stored (e : Event) (b : Byte) (he : e.issues (.push b)) (hx : s.rxEn = true) (hf : s.full = false) :
      Taken s e ((((s.setData (Memory.write s.data (nextIndex s.cfg.capacity s.head) b)).setHead
        (nextIndex s.cfg.capacity s.head)).respond .producer .ok 0x00#8).wake)
  | popEmpty (w : Word) (hd : decode .consumer w = .instr .pop) (hr : s.sync = .run) (he : s.empty = true) :
      Taken s (.word .consumer w) (s.respond .consumer .empty 0x00#8)
  | popByte (w : Word) (hd : decode .consumer w = .instr .pop) (hr : s.sync = .run) (he : s.empty = false) (b : Byte)
      (hb : Memory.read s.data (nextIndex s.cfg.capacity s.tail) = some b) :
      Taken s (.word .consumer w) ((s.setTail (nextIndex s.cfg.capacity s.tail)).respond .consumer .ok b)
  | isempty (w : Word) (hd : decode .consumer w = .instr .isempty) (hr : s.sync = .run) :
      Taken s (.word .consumer w) (s.respond .consumer .ok s.emptyByte)
  | status (w : Word) (hd : decode .consumer w = .instr .status) (hr : s.sync = .run) :
      Taken s (.word .consumer w) (s.respond .consumer .ok s.statusByte)
  | waitOk (w : Word) (hd : decode .consumer w = .instr .wait) (hr : s.sync = .run) (he : s.empty = false) :
      Taken s (.word .consumer w) (s.endWait.respond .consumer .ok 0x00#8)
  | getByte (w : Word) (hd : decode .consumer w = .instr .get) (hr : s.sync = .run) (he : s.empty = false) (b : Byte)
      (hb : Memory.read s.data (nextIndex s.cfg.capacity s.tail) = some b) :
      Taken s (.word .consumer w) ((s.setTail (nextIndex s.cfg.capacity s.tail)).endWait.respond .consumer .ok b)
  | wouldBlock (w : Word) (i : Instr) (hi : i = .wait ∨ i = .get) (hd : decode .consumer w = .instr i)
      (hr : s.sync = .run) (he : s.empty = true) (hk : s.block = false) :
      Taken s (.word .consumer w) (s.respond .consumer .wouldBlock 0x00#8)
  | fallAsleep (w : Word) (i : Instr) (op : Pend) (hi : (i = .wait ∧ op = .wait) ∨ (i = .get ∧ op = .get))
      (hd : decode .consumer w = .instr i) (hr : s.sync = .run) (he : s.empty = true) (hk : s.block = true) :
      Taken s (.word .consumer w) (((s.setPend op).setSync (sleepState s.cfg)).silent)
  | init (w : Word) (blk : Blk) (hd : decode .consumer w = .instr (.init blk)) (hr : s.sync = .run) (b : Bool)
      (hb : initBlock s.cfg blk = some b) :
      Taken s (.word .consumer w) ((((s.setHead s.cfg.resetIndex).setTail s.cfg.resetIndex).setCtrl
        (ctrlEnableRx (ctrlSetBlock s.ctrl b))).respond .consumer .ok 0x00#8)
  | ctrl (w : Word) (blk : Blk) (hd : decode .consumer w = .instr (.ctrl blk)) (hr : s.sync = .run) (b : Bool)
      (hb : ctrlBlock s.block blk = some b) :
      Taken s (.word .consumer w) ((s.setCtrl (ctrlSetBlock s.ctrl b)).respond .consumer .ok 0x00#8)
  | invalid (w : Word) (i : Instr) (hi : i = .init .both ∨ i = .ctrl .both) (hd : decode .consumer w = .instr i)
      (hr : s.sync = .run) : Taken s (.word .consumer w) (s.respond .consumer .invalid 0x00#8)
  | close (w : Word) (hd : decode .consumer w = .instr .close) (hr : s.sync = .run) :
      Taken s (.word .consumer w) (s.respond .consumer .ok 0x00#8)
  | irqx : Taken s .irqx s.silent.wake
  | reset : Taken s .reset ((State.powerOn s.cfg).setInputs s.inputs)
  | sleep (hs : s.sync = .presleep) : Taken s .sleep ((s.setSync .sleep).silent)
  | recheckWait (hs : s.sync = .woken) (he : s.empty = false) (hp : s.pend = .wait) :
      Taken s .recheck (s.endWait.respond .consumer .ok 0x00#8)
  | recheckGet (hs : s.sync = .woken) (he : s.empty = false) (hp : s.pend = .get) (b : Byte)
      (hb : Memory.read s.data (nextIndex s.cfg.capacity s.tail) = some b) :
      Taken s .recheck ((s.setTail (nextIndex s.cfg.capacity s.tail)).endWait.respond .consumer .ok b)
  | sleepAgain (hs : s.sync = .woken) (he : s.empty = true) :
      Taken s .recheck ((s.setSync (sleepState s.cfg)).silent)

/-! ## What each operation can do -/

theorem execPush_next {b : Byte} {s t : State} (h : execPush b s = .next t) (e : Event) (he : e.issues (.push b)) :
    s.Ready ∧ Taken s e t := by
  obtain ⟨hr, -, h⟩ := accepted_next h
  refine ⟨hr, ?_⟩
  split at h
  · cases h; exact .rxOff e b he ‹_›
  · split at h
    · cases h; exact .dropped e b he (by simp_all) ‹_›
    · obtain ⟨-, h⟩ := storeSlot_next h
      cases h
      exact .stored e b he (by simp_all) (by simp_all)

theorem execPop_next {s t : State} (h : execPop s = .next t) {w : Word} (hd : decode .consumer w = .instr .pop) :
    s.Ready ∧ Taken s (.word .consumer w) t := by
  obtain ⟨hr, hp, h⟩ := accepted_next h
  refine ⟨hr, ?_⟩
  split at h
  · cases h; exact .popEmpty w hd (hp rfl) ‹_›
  · obtain ⟨b, hb, h⟩ := takeByte_next h
    cases h
    exact .popByte w hd (hp rfl) (by simp_all) b hb

theorem execIsempty_next {s t : State} (h : execIsempty s = .next t) {w : Word}
    (hd : decode .consumer w = .instr .isempty) : s.Ready ∧ Taken s (.word .consumer w) t := by
  obtain ⟨hr, hp, h⟩ := accepted_next h
  cases h
  exact ⟨hr, .isempty w hd (hp rfl)⟩

theorem execStatus_next {s t : State} (h : execStatus s = .next t) {w : Word}
    (hd : decode .consumer w = .instr .status) : s.Ready ∧ Taken s (.word .consumer w) t := by
  obtain ⟨hr, hp, h⟩ := accepted_next h
  cases h
  exact ⟨hr, .status w hd (hp rfl)⟩

theorem execWait_next {s t : State} (h : execWait s = .next t) {w : Word} (hd : decode .consumer w = .instr .wait) :
    s.Ready ∧ Taken s (.word .consumer w) t := by
  obtain ⟨hr, hp, h⟩ := accepted_next h
  refine ⟨hr, ?_⟩
  rcases check_next h with ⟨he, h⟩ | ⟨he, hk, rfl⟩ | ⟨he, hk, rfl⟩
  · rcases complete_next h with ⟨-, rfl⟩ | ⟨h, -⟩
    · exact .waitOk w hd (hp rfl) he
    · cases h
  · exact .wouldBlock w _ (.inl rfl) hd (hp rfl) he hk
  · exact .fallAsleep w _ _ (.inl ⟨rfl, rfl⟩) hd (hp rfl) he hk

theorem execGet_next {s t : State} (h : execGet s = .next t) {w : Word} (hd : decode .consumer w = .instr .get) :
    s.Ready ∧ Taken s (.word .consumer w) t := by
  obtain ⟨hr, hp, h⟩ := accepted_next h
  refine ⟨hr, ?_⟩
  rcases check_next h with ⟨he, h⟩ | ⟨he, hk, rfl⟩ | ⟨he, hk, rfl⟩
  · rcases complete_next h with ⟨h, -⟩ | ⟨-, b, hb, rfl⟩
    · cases h
    · exact .getByte w hd (hp rfl) he b hb
  · exact .wouldBlock w _ (.inr rfl) hd (hp rfl) he hk
  · exact .fallAsleep w _ _ (.inr ⟨rfl, rfl⟩) hd (hp rfl) he hk

theorem execInit_next {blk : Blk} {s t : State} (h : execInit blk s = .next t) {w : Word}
    (hd : decode .consumer w = .instr (.init blk)) : s.Ready ∧ Taken s (.word .consumer w) t := by
  obtain ⟨hr, hp, h⟩ := accepted_next h
  refine ⟨hr, ?_⟩
  split at h
  · cases h; exact .init w blk hd (hp rfl) _ ‹_›
  · cases h
    refine .invalid w _ (.inl ?_) hd (hp rfl)
    cases blk <;> simp_all [initBlock]

theorem execCtrl_next {blk : Blk} {s t : State} (h : execCtrl blk s = .next t) {w : Word}
    (hd : decode .consumer w = .instr (.ctrl blk)) : s.Ready ∧ Taken s (.word .consumer w) t := by
  obtain ⟨hr, hp, h⟩ := accepted_next h
  refine ⟨hr, ?_⟩
  split at h
  · cases h; exact .ctrl w blk hd (hp rfl) _ ‹_›
  · cases h
    refine .invalid w _ (.inr ?_) hd (hp rfl)
    cases blk <;> simp_all [ctrlBlock]

theorem execClose_next {s t : State} (h : execClose s = .next t) {w : Word}
    (hd : decode .consumer w = .instr .close) : s.Ready ∧ Taken s (.word .consumer w) t := by
  obtain ⟨hr, hp, h⟩ := accepted_next h
  cases h
  exact ⟨hr, .close w hd (hp rfl)⟩

/-! ## What a word, a transition and a step can do -/

theorem deliverWord_next {p : Port} {w : Word} {s t : State} (h : deliverWord p w s = .next t) :
    s.Ready ∧ Taken s (.word p w) t := by
  unfold deliverWord at h
  split at h
  · rename_i why hd
    obtain ⟨hr, hp, h⟩ := accepted_next h
    cases h
    exact ⟨hr, .illegal p w why hd hp⟩
  · rename_i i hd
    have hport := decode_port hd
    cases i with
    | push b => exact execPush_next h _ (.inl ⟨p, w, rfl, hd⟩)
    | pop => cases hport; exact execPop_next h hd
    | isempty => cases hport; exact execIsempty_next h hd
    | wait => cases hport; exact execWait_next h hd
    | get => cases hport; exact execGet_next h hd
    | init blk => cases hport; exact execInit_next h hd
    | ctrl blk => cases hport; exact execCtrl_next h hd
    | close => cases hport; exact execClose_next h hd
    | status => cases hport; exact execStatus_next h hd

/-- The word an arriving byte becomes is the PUSH of that byte (rule R65). -/
theorem deliver_rx (b : Byte) (s : State) : deliver (.rx b) s = exec (.push b) s := by
  show deliverWord .producer (encode (.push b)) s = _
  unfold deliverWord
  rw [show decode .producer (encode (.push b)) = .instr (.push b) from decode_encode (.push b)]

theorem deliver_next {e : Event} {s t : State} (h : deliver e s = .next t) : s.Ready ∧ Taken s e t := by
  cases e with
  | word p w => exact deliverWord_next h
  | rx b =>
    rw [deliver_rx] at h
    exact execPush_next h _ (.inr ⟨b, rfl, rfl⟩)
  | irqx =>
    replace h : irqxEvent s = .next t := h
    obtain ⟨hr, h⟩ := guarded_next h
    cases h
    exact ⟨hr, .irqx⟩
  | reset =>
    replace h : resetEvent s = .next t := h
    obtain ⟨hr, h⟩ := guarded_next h
    cases h
    exact ⟨hr, .reset⟩
  | sleep =>
    replace h : sleepStep s = .next t := h
    obtain ⟨hr, h⟩ := guarded_next h
    refine ⟨hr, ?_⟩
    split at h
    · cases h; exact .sleep ‹_›
    · cases h
  | recheck =>
    replace h : recheckStep s = .next t := h
    obtain ⟨hr, h⟩ := guarded_next h
    refine ⟨hr, ?_⟩
    split at h
    · split at h
      · rcases complete_next h with ⟨hp, rfl⟩ | ⟨hp, b, hb, rfl⟩
        · exact .recheckWait ‹_› ‹_› hp
        · exact .recheckGet ‹_› ‹_› hp b hb
      · cases h; exact .sleepAgain ‹_› (by simp_all)
    · cases h

/-- A step takes the transition at the head of the schedule. -/
theorem step_facing (s : State) (e : Event) (rest : List Event) :
    step (s.facing e rest) = deliver e (s.setInputs rest) := rfl

/-- The inversion of a step on a scheduled transition: the state is ready, and the transition is one of `Taken`. -/
theorem step_facing_next {s t : State} {e : Event} {rest : List Event} (h : step (s.facing e rest) = .next t) :
    (s.setInputs rest).Ready ∧ Taken (s.setInputs rest) e t := deliver_next h

/-- The inversion of any step. -/
theorem step_next {s t : State} (h : step s = .next t) :
    s.Ready ∧ ((s.inputs = [] ∧ t = s.silent) ∨
      ∃ e rest, s.inputs = e :: rest ∧ Taken (s.setInputs rest) e t) := by
  unfold step at h
  split at h
  · obtain ⟨hr, h⟩ := guarded_next h
    cases h
    exact ⟨hr, .inl ⟨‹_›, rfl⟩⟩
  · obtain ⟨hr, h⟩ := deliver_next h
    exact ⟨⟨hr.config, hr.index⟩, .inr ⟨_, _, ‹_›, h⟩⟩

end Sys2Proof.Machine
end

