-- ==== Sys2Proof/Laws/Contents.lean ====
section
/-! SUPPORT. The unread bytes as a list (rule R28): which slots it reads, and how it changes when HEAD or TAIL advances. -/

namespace Sys2Proof.Machine

@[simp] theorem slotsAfter_length (c : Nat) (m : Memory) (n t : Nat) : (slotsAfter c m n t).length = n := by
  induction n generalizing t with
  | zero => rfl
  | succ n ih => simp [slotsAfter, ih]

@[simp] theorem State.contents_length (s : State) : s.contents.length = s.count := slotsAfter_length ..

/-- The last of the slots after `t` can be taken out. -/
theorem slotsAfter_succ (c : Nat) (m : Memory) (n t : Nat) :
    slotsAfter c m (n + 1) t = slotsAfter c m n t ++ [Memory.read m (nextIter c (n + 1) t)] := by
  induction n generalizing t with
  | zero => rfl
  | succ n ih =>
    show Memory.read m (nextIndex c t) :: slotsAfter c m (n + 1) (nextIndex c t) = _
    rw [ih (nextIndex c t)]; rfl

/-- The list depends only on the slots it reads. -/
theorem slotsAfter_congr {c : Nat} {m m' : Memory} (n t : Nat)
    (h : ∀ k, 1 ≤ k → k ≤ n → Memory.read m (nextIter c k t) = Memory.read m' (nextIter c k t)) :
    slotsAfter c m n t = slotsAfter c m' n t := by
  induction n generalizing t with
  | zero => rfl
  | succ n ih =>
    have h1 := h 1 le_rfl (by omega)
    simp only [nextIter] at h1
    simp only [slotsAfter, h1]
    rw [ih (nextIndex c t) fun k hk hn => h (k + 1) (by omega) (by omega)]

/-- How far `next^k` leads from its start. -/
theorem indexDistance_nextIter {c : Nat} (hc : 3 ≤ c) {t : Nat} (ht : legalIndex c t) (k : Nat) (hk : k < c - 1) :
    indexDistance c t (nextIter c k t) = k := by
  induction k with
  | zero => exact indexDistance_self hc ht
  | succ k ih =>
    have ih := ih (by omega)
    rw [nextIter_succ, indexDistance_next_right hc ht (nextIter_legal hc k ht), ih]
    intro e
    have := (indexDistance_full hc ht (nextIter_legal hc k ht)).2 e
    omega

/-- A slot is unread exactly when it is one of `next^1` to `next^COUNT` of TAIL (rule R28). -/
theorem unread_iff {s : State} (h : s.Ready) (i : Nat) :
    s.unread i ↔ ∃ k, 1 ≤ k ∧ k ≤ s.count ∧ i = nextIter s.cfg.capacity k s.tail := by
  have hc := h.three_le
  obtain ⟨hh, ht⟩ := h.index
  have hlt : s.count < s.cfg.capacity - 1 := indexDistance_lt hc ht hh
  constructor
  · rintro ⟨hi, h1, h2⟩
    exact ⟨_, h1, h2, (nextIter_distance hc ht hi).symm⟩
  · rintro ⟨k, h1, h2, rfl⟩
    have := indexDistance_nextIter hc ht k (by omega)
    exact ⟨nextIter_legal hc k ht, by omega, by omega⟩

theorem empty_iff_count {s : State} (h : s.Ready) : s.empty = true ↔ s.count = 0 := by
  have hc := h.three_le
  obtain ⟨hh, ht⟩ := h.index
  rw [State.count, indexDistance_eq_zero hc ht hh]
  simp only [State.empty, beq_iff_eq]
  exact eq_comm

theorem empty_false_iff_count {s : State} (h : s.Ready) : s.empty = false ↔ s.count ≠ 0 := by
  rw [← Bool.not_eq_true, empty_iff_count h]

theorem full_iff_count {s : State} (h : s.Ready) : s.full = true ↔ s.count = s.cfg.capacity - 2 := by
  have hc := h.three_le
  obtain ⟨hh, ht⟩ := h.index
  rw [State.count, indexDistance_full hc ht hh]
  simp [State.full]

theorem full_false_iff_count {s : State} (h : s.Ready) : s.full = false ↔ s.count ≠ s.cfg.capacity - 2 := by
  rw [← Bool.not_eq_true, full_iff_count h]

theorem count_lt {s : State} (h : s.Ready) : s.count < s.cfg.capacity - 1 :=
  indexDistance_lt h.three_le h.index.2 h.index.1

/-- An empty buffer has no unread bytes. -/
theorem contents_of_empty {s : State} (h : s.Ready) (he : s.empty = true) : s.contents = [] := by
  rw [State.contents, (empty_iff_count h).1 he]; rfl

/-- An accepted PUSH: one byte more, COUNT up by one, at the end of the unread bytes (rules R28, R66). -/
theorem push_contents {s t : State} (h : s.Ready) (hf : s.full = false) (b : Byte) (hcfg : t.cfg = s.cfg)
    (hhead : t.head = nextIndex s.cfg.capacity s.head) (htail : t.tail = s.tail)
    (hdata : t.data = Memory.write s.data (nextIndex s.cfg.capacity s.head) b) :
    t.Ready ∧ t.count = s.count + 1 ∧ t.contents = s.contents ++ [some b] ∧ ¬s.unread (nextIndex s.cfg.capacity s.head) := by
  have hc := h.three_le
  obtain ⟨hh, ht⟩ := h.index
  have hne : nextIndex s.cfg.capacity s.head ≠ s.tail := by simpa [State.full] using hf
  have hd := indexDistance_next_right hc ht hh hne
  have hcount : t.count = s.count + 1 := by simp only [State.count, hcfg, hhead, htail, hd]
  have hr : t.Ready := ⟨hcfg ▸ h.config, by
    simp only [State.indexOk, hcfg, hhead, htail]; exact ⟨nextIndex_legal hc hh, ht⟩⟩
  have hnu : ¬s.unread (nextIndex s.cfg.capacity s.head) := by
    rintro ⟨-, -, h3⟩
    rw [hd] at h3; simp [State.count] at h3
  refine ⟨hr, hcount, ?_, hnu⟩
  have hend : nextIter s.cfg.capacity (s.count + 1) s.tail = nextIndex s.cfg.capacity s.head := by
    rw [nextIter_succ, State.count, nextIter_distance hc ht hh]
  rw [State.contents, hcount, hcfg, htail, hdata, slotsAfter_succ, hend, Memory.read_write_same]
  congr 1
  refine slotsAfter_congr _ _ fun k h1 h2 => Memory.read_write_other _ _ fun e => hnu ?_
  exact (unread_iff h _).2 ⟨k, h1, h2, e.symm⟩

/-- A pop: the first unread byte goes, COUNT down by one (rules R28, R72). -/
theorem pop_contents {s t : State} (h : s.Ready) (he : s.empty = false) (hcfg : t.cfg = s.cfg) (hhead : t.head = s.head)
    (htail : t.tail = nextIndex s.cfg.capacity s.tail) (hdata : t.data = s.data) :
    t.Ready ∧ t.count + 1 = s.count ∧
      s.contents = Memory.read s.data (nextIndex s.cfg.capacity s.tail) :: t.contents := by
  have hc := h.three_le
  obtain ⟨hh, ht⟩ := h.index
  have hne : s.tail ≠ s.head := fun e => by simp [State.empty, e] at he
  have hd := indexDistance_next_left hc ht hh hne
  have hcount : t.count + 1 = s.count := by simp only [State.count, hcfg, hhead, htail, hd]
  refine ⟨⟨hcfg ▸ h.config, ?_⟩, hcount, ?_⟩
  · simp only [State.indexOk, hcfg, hhead, htail]; exact ⟨hh, nextIndex_legal hc ht⟩
  · rw [State.contents, State.contents, ← hcount, hcfg, htail, hdata]; rfl

/-- Every unread slot holds a value exactly when the list of unread bytes has no gap. -/
theorem unreadWritten_iff {s : State} (h : s.Ready) : s.UnreadWritten ↔ ∀ x ∈ s.contents, ∃ b, x = some b := by
  have key (n t : Nat) : (∀ x ∈ slotsAfter s.cfg.capacity s.data n t, ∃ b, x = some b) ↔
      ∀ k, 1 ≤ k → k ≤ n → ∃ b, Memory.read s.data (nextIter s.cfg.capacity k t) = some b := by
    induction n with
    | zero => simp [slotsAfter]; omega
    | succ n ih =>
      rw [slotsAfter_succ]
      simp only [List.mem_append, List.mem_singleton, or_imp, forall_and, forall_eq, ih]
      constructor
      · rintro ⟨h1, h2⟩ k hk hn
        rcases Nat.lt_or_eq_of_le hn with hlt | rfl
        · exact h1 k hk (by omega)
        · exact h2
      · exact fun H => ⟨fun k hk hn => H k hk (by omega), H (n + 1) (by omega) le_rfl⟩
  rw [State.contents, key, State.UnreadWritten]
  constructor
  · exact fun H k h1 h2 => H _ ((unread_iff h _).2 ⟨k, h1, h2, rfl⟩)
  · intro H i hi
    obtain ⟨k, h1, h2, rfl⟩ := (unread_iff h i).1 hi
    exact H k h1 h2

/-- Whether a history fits depends on the unread bytes alone. -/
theorem History.Fits.congr {h : History} {s t : State} (hf : h.Fits s) (hc : t.contents = s.contents) : h.Fits t := by
  rw [History.Fits, hc]; exact hf

end Sys2Proof.Machine
end

