-- ==== Sys2Proof/Laws/Flags.lean ====
section
/-! SUPPORT. The fields of CTRL after each write (rules R19 to R21), and the response words (rules R57, R58). -/

namespace Sys2Proof.Machine

/-! ## CTRL -/

theorem ctrlEnableRx_rxEn (c : BitVec 8) : (ctrlEnableRx c).getLsbD 0 = true := by simp [ctrlEnableRx]
theorem ctrlEnableRx_block (c : BitVec 8) : (ctrlEnableRx c).getLsbD 1 = c.getLsbD 1 := by simp [ctrlEnableRx]
theorem ctrlEnableRx_reserved (c : BitVec 8) : ctrlEnableRx c &&& 0xFC#8 = c &&& 0xFC#8 := by
  revert c; decide
theorem ctrlSetBlock_rxEn (c : BitVec 8) (b : Bool) : (ctrlSetBlock c b).getLsbD 0 = c.getLsbD 0 := by
  cases b <;> simp [ctrlSetBlock]
theorem ctrlSetBlock_block (c : BitVec 8) (b : Bool) : (ctrlSetBlock c b).getLsbD 1 = b := by
  cases b <;> simp [ctrlSetBlock]
theorem ctrlSetBlock_others (c : BitVec 8) (b : Bool) : ctrlSetBlock c b &&& 0xFD#8 = c &&& 0xFD#8 := by
  revert c; cases b <;> decide
theorem ctrlSetBlock_reserved (c : BitVec 8) (b : Bool) : ctrlSetBlock c b &&& 0xFC#8 = c &&& 0xFC#8 := by
  revert c; cases b <;> decide

/-! ## Response words -/

theorem responseWord_toNat (rc : Rc) (d : Byte) : (responseWord rc d).toNat = rc.code.toNat * 4096 + d.toNat := by
  have h : responseWord rc d = (rc.code ++ 0#4 ++ d : BitVec (4 + 4 + 8)) := rfl
  rw [h]
  simp only [BitVec.toNat_append]
  rw [← Nat.shiftLeft_add_eq_or_of_lt d.isLt, ← Nat.shiftLeft_add_eq_or_of_lt (show (0#4).toNat < 2 ^ 4 by decide)]
  simp only [Nat.shiftLeft_eq]
  simp; omega

/-- A response word is OK exactly when its code is. -/
theorem isOk_responseWord (rc : Rc) (d : Byte) : isOk (responseWord rc d) = (rc == .ok) := by
  have h : (responseWord rc d).extractLsb' 12 4 = rc.code := by
    apply BitVec.eq_of_toNat_eq
    rw [BitVec.extractLsb'_toNat, responseWord_toNat, Nat.shiftRight_eq_div_pow]
    have := d.isLt; have := rc.code.isLt
    omega
  unfold isOk; rw [h]; cases rc <;> rfl

/-- An OK response word is its byte, zero-extended. -/
theorem responseWord_ok (b : Byte) : responseWord .ok b = b.setWidth 16 := by
  apply BitVec.eq_of_toNat_eq
  rw [responseWord_toNat]
  have := b.isLt
  simp [Rc.code]; omega

end Sys2Proof.Machine
end

