-- ==== Sys2Proof/Laws/Safety.lean ====
section
/-! SUPPORT. The terms of Safety.lean: which fields they depend on, how they are checked of a concrete state, and the
state in which a schedule is being read. -/

namespace Sys2Proof.Machine

@[simp] theorem State.facing_inputs (s : State) (e : Event) (rest : List Event) : (s.facing e rest).inputs = e :: rest := rfl

/-- Readiness depends on the parameters and the indices alone. -/
theorem State.Ready.congr {s t : State} (h : s.Ready) (hc : t.cfg = s.cfg) (hh : t.head = s.head) (ht : t.tail = s.tail) :
    t.Ready := ⟨hc ▸ h.config, by have := h.index; simp only [State.indexOk, *] at *; exact this⟩

theorem State.Ready.setInputs {s : State} (h : s.Ready) (es : List Event) : (s.setInputs es).Ready := h.congr rfl rfl rfl

theorem State.Quiescent.setInputs {s : State} (h : s.Quiescent) (es : List Event) : (s.setInputs es).Quiescent :=
  ⟨h.toReady.setInputs es, h.run⟩

/-- The invariant does not look at the schedule or the last response. -/
theorem State.Inv.congr {s t : State} (h : s.Inv) (h1 : t.cfg = s.cfg) (h2 : t.data = s.data) (h3 : t.head = s.head)
    (h4 : t.tail = s.tail) (h5 : t.ctrl = s.ctrl) (h6 : t.sync = s.sync) (h7 : t.pend = s.pend) : t.Inv where
  toReady := h.toReady.congr h1 h3 h4
  canonical := h2 ▸ h.canonical
  slots := by rw [h1, h2]; exact h.slots
  written := fun i hi => by
    rw [h2]; exact h.written i (by simpa only [State.unread, State.count, h1, h3, h4] using hi)
  reserved := h5 ▸ h.reserved
  pending := by rw [h6, h7]; exact h.pending
  twoSteps := by rw [h1, h6]; exact h.twoSteps
  blocking := by rw [h6, State.block, h5]; exact h.blocking
  asleep := by rw [h1, h6]; simp only [State.empty, h3, h4]; exact h.asleep
  beforeInit := by simp only [State.rxEn, h1, h2, h3, h4, h5]; exact h.beforeInit

theorem State.Inv.setInputs {s : State} (h : s.Inv) (es : List Event) : (s.setInputs es).Inv :=
  h.congr rfl rfl rfl rfl rfl rfl rfl

/-- Whether every unread slot holds a value can be checked over the indices below C. -/
theorem unreadWritten_of_check {s : State}
    (h : ∀ i < s.cfg.capacity, s.unread i → (Memory.read s.data i).isSome = true) : s.UnreadWritten :=
  fun i hi => Option.isSome_iff_exists.1 (h i hi.1.2 hi)

/-- Whether only legal slots were written can be checked over the cells. -/
theorem slots_of_check {m : Memory} {c : Nat} (h : ∀ x ∈ m, legalIndex c x.1) :
    ∀ a b, Memory.read m a = some b → legalIndex c a := fun _ _ hb => h _ (Memory.mem_of_read hb)

/-- The invariant can be checked of a concrete state. -/
theorem State.Inv.of_check {s : State} (h : s.cfg.WellFormed ∧ s.indexOk ∧ Memory.wf s.data = true ∧
    (∀ x ∈ s.data, legalIndex s.cfg.capacity x.1) ∧
    (∀ i < s.cfg.capacity, s.unread i → (Memory.read s.data i).isSome = true) ∧ s.ctrl &&& 0xFC#8 = 0#8 ∧
    (s.pend = .none ↔ s.sync = .run) ∧ (s.sync = .presleep → s.cfg.atomicSleep = false) ∧
    (s.sync ≠ .run → s.block = true) ∧ (s.cfg.atomicSleep = true → s.sync = .sleep → s.empty = true) ∧
    (s.rxEn = false → s.head = s.cfg.resetIndex ∧ s.tail = s.cfg.resetIndex ∧ s.data = [])) : s.Inv :=
  have ⟨h1, h2, h3, h4, h5, h6, h7, h8, h9, h10, h11⟩ := h
  ⟨⟨h1, h2⟩, h3, slots_of_check h4, unreadWritten_of_check h5, h6, h7, h8, h9, h10, h11⟩

/-- Two states with the same parameters, DATA, HEAD and TAIL hold the same unread bytes. -/
theorem contents_congr {s t : State} (h1 : t.cfg = s.cfg) (h2 : t.data = s.data) (h3 : t.head = s.head)
    (h4 : t.tail = s.tail) : t.contents = s.contents := by
  simp only [State.contents, State.count, *]

end Sys2Proof.Machine
end

