-- ==== Sys2Proof/Laws/Exec.lean ====
section
/-! SUPPORT. Each operation and each transition without a word, past its guard: what it answers in a state it runs in,
and how it stops in one it does not. -/

namespace Sys2Proof.Machine

/-! ## Past the guard -/

theorem exec_push {s : State} (h : s.Ready) (b : Byte) : exec (.push b) s =
    if s.rxEn = false then .next (s.respond .producer .rxOff 0x00#8)
    else if s.full then .next ((s.respond .producer .dropped 0x00#8).wake)
    else .next ((((s.setData (Memory.write s.data (nextIndex s.cfg.capacity s.head) b)).setHead
      (nextIndex s.cfg.capacity s.head)).respond .producer .ok 0x00#8).wake) := by
  show execPush b s = _
  rw [execPush, accepted_producer h, storeSlot_legal (nextIndex_legal h.three_le h.index.1)]; rfl

theorem exec_pop {s : State} (h : s.Quiescent) : exec .pop s =
    if s.empty then .next (s.respond .consumer .empty 0x00#8)
    else takeByte s fun b s => .next (s.respond .consumer .ok b) := by
  show execPop s = _
  rw [execPop, accepted_consumer h]

theorem exec_isempty {s : State} (h : s.Quiescent) :
    exec .isempty s = .next (s.respond .consumer .ok s.emptyByte) := by
  show execIsempty s = _
  rw [execIsempty, accepted_consumer h]

theorem exec_status {s : State} (h : s.Quiescent) :
    exec .status s = .next (s.respond .consumer .ok s.statusByte) := by
  show execStatus s = _
  rw [execStatus, accepted_consumer h]

theorem exec_wait {s : State} (h : s.Quiescent) : exec .wait s = check .wait s := by
  show execWait s = _
  rw [execWait, accepted_consumer h]

theorem exec_get {s : State} (h : s.Quiescent) : exec .get s = check .get s := by
  show execGet s = _
  rw [execGet, accepted_consumer h]

theorem exec_init {s : State} (h : s.Quiescent) {blk : Blk} {b : Bool} (hb : initBlock s.cfg blk = some b) :
    exec (.init blk) s = .next ((((s.setHead s.cfg.resetIndex).setTail s.cfg.resetIndex).setCtrl
      (ctrlEnableRx (ctrlSetBlock s.ctrl b))).respond .consumer .ok 0x00#8) := by
  show execInit blk s = _
  rw [execInit, accepted_consumer h, hb]

theorem exec_init_both {s : State} (h : s.Quiescent) :
    exec (.init .both) s = .next (s.respond .consumer .invalid 0x00#8) := by
  show execInit .both s = _
  rw [execInit, accepted_consumer h]; rfl

theorem exec_ctrl {s : State} (h : s.Quiescent) {blk : Blk} {b : Bool} (hb : ctrlBlock s.block blk = some b) :
    exec (.ctrl blk) s = .next ((s.setCtrl (ctrlSetBlock s.ctrl b)).respond .consumer .ok 0x00#8) := by
  show execCtrl blk s = _
  rw [execCtrl, accepted_consumer h, hb]

theorem exec_ctrl_both {s : State} (h : s.Quiescent) :
    exec (.ctrl .both) s = .next (s.respond .consumer .invalid 0x00#8) := by
  show execCtrl .both s = _
  rw [execCtrl, accepted_consumer h]; rfl

theorem exec_close {s : State} (h : s.Quiescent) : exec .close s = .next (s.respond .consumer .ok 0x00#8) := by
  show execClose s = _
  rw [execClose, accepted_consumer h]

theorem deliver_irqx {s : State} (h : s.Ready) : deliver .irqx s = .next s.silent.wake := by
  show irqxEvent s = _
  rw [irqxEvent, guarded_of_ready h]

theorem deliver_reset {s : State} (h : s.Ready) :
    deliver .reset s = .next ((State.powerOn s.cfg).setInputs s.inputs) := by
  show resetEvent s = _
  rw [resetEvent, guarded_of_ready h]

theorem deliver_sleep {s : State} (h : s.Ready) : deliver .sleep s =
    if s.sync = .presleep then .next ((s.setSync .sleep).silent) else .refused .stepNotEnabled := by
  show sleepStep s = _
  rw [sleepStep, guarded_of_ready h]

theorem deliver_recheck {s : State} (h : s.Ready) : deliver .recheck s =
    if s.sync = .woken then
      if s.empty = false then complete s.pend s else .next ((s.setSync (sleepState s.cfg)).silent)
    else .refused .stepNotEnabled := by
  show recheckStep s = _
  rw [recheckStep, guarded_of_ready h]

theorem idleStep_ready {s : State} (h : s.Ready) : idleStep s = .next s.silent := by
  rw [idleStep, guarded_of_ready h]

/-- A word that decodes is its operation. -/
theorem deliver_instr {p : Port} {w : Word} {i : Instr} (hd : decode p w = .instr i) (s : State) :
    deliver (.word p w) s = exec i s := by
  show deliverWord p w s = _
  unfold deliverWord; rw [hd]

/-- A word that does not is answered ILLEGAL, if the port accepts it. -/
theorem deliver_illegal {p : Port} {w : Word} {why : IllegalWord} (hd : decode p w = .illegal why) (s : State) :
    deliver (.word p w) s = accepted p s fun s => .next (s.respond p .illegal 0x00#8) := by
  show deliverWord p w s = _
  unfold deliverWord; rw [hd]

/-! ## At the guard -/

/-- Each operation is its own transition on its own port. -/
theorem exec_eq_accepted (i : Instr) : ∃ k, ∀ s, exec i s = accepted i.port s k := by
  cases i with
  | push b => exact ⟨_, fun s => by show execPush b s = _; unfold execPush; rfl⟩
  | pop => exact ⟨_, fun s => by show execPop s = _; unfold execPop; rfl⟩
  | isempty => exact ⟨_, fun s => by show execIsempty s = _; unfold execIsempty; rfl⟩
  | wait => exact ⟨_, fun s => by show execWait s = _; unfold execWait; rfl⟩
  | get => exact ⟨_, fun s => by show execGet s = _; unfold execGet; rfl⟩
  | init blk => exact ⟨_, fun s => by show execInit blk s = _; unfold execInit; rfl⟩
  | ctrl blk => exact ⟨_, fun s => by show execCtrl blk s = _; unfold execCtrl; rfl⟩
  | close => exact ⟨_, fun s => by show execClose s = _; unfold execClose; rfl⟩
  | status => exact ⟨_, fun s => by show execStatus s = _; unfold execStatus; rfl⟩

/-- What the guard answers in place of every transition, each operation answers. -/
theorem exec_of_guard {s : State} {o : Host.Outcome State Fault Refusal} (h : ∀ k, guarded s k = o) (i : Instr) :
    exec i s = o := by
  obtain ⟨k, hk⟩ := exec_eq_accepted i
  rw [hk, accepted, h]

/-- What the guard answers in place of every transition, each transition answers. -/
theorem deliver_of_guard {s : State} {o : Host.Outcome State Fault Refusal} (h : ∀ k, guarded s k = o) (e : Event) :
    deliver e s = o := by
  cases e with
  | word p w =>
    cases hd : decode p w with
    | illegal why => rw [deliver_illegal hd]; exact h _
    | instr i => rw [deliver_instr hd]; exact exec_of_guard h i
  | rx b => rw [deliver_rx]; exact exec_of_guard h _
  | irqx => show irqxEvent s = o; exact h _
  | reset => show resetEvent s = o; exact h _
  | sleep => show sleepStep s = o; exact h _
  | recheck => show recheckStep s = o; exact h _

/-- A consumer word is refused while SYNC is not RUN (rule R76). -/
theorem exec_held {s : State} (h : s.Ready) {i : Instr} (hi : i.port = .consumer) (hs : s.sync ≠ .run) :
    exec i s = .refused .consumerHeld := by
  obtain ⟨k, hk⟩ := exec_eq_accepted i
  rw [hk, hi, accepted, guarded_of_ready h, if_pos ⟨rfl, hs⟩]

end Sys2Proof.Machine
end

