-- ==== Sys2Proof/Laws/PerInstr.lean ====
section
/-! SUPPORT. A law of each operation as syntax, one lemma per constructor: its word names its own port, and decodes to
it there and nowhere else. -/

namespace Sys2Proof.Laws.RoundTrip

/-- The word of `i` is one that its OP code puts on the port of `i`, and it decodes to `i` on exactly that port. -/
def Statement (i : Instr) : Prop :=
  wordPort (encode i) = i.port ∧ ∀ p, decode p (encode i) = .instr i ↔ i.WellFormedOn p

/-- The port a word is legal on is the one it decodes on. -/
theorem of_decode_encode (i : Instr) : Statement i := by
  have hd := decode_encode i
  refine ⟨?_, fun p => ⟨fun h => decode_port h, fun h => h ▸ hd⟩⟩
  obtain ⟨r, hr, hp, -, -⟩ := decode_eq_instr.1 hd
  rw [wordPort, hr, ← hp]

theorem push (b : Byte) : Statement (.push b) := of_decode_encode _
theorem pop : Statement .pop := of_decode_encode _
theorem isempty : Statement .isempty := of_decode_encode _
theorem wait : Statement .wait := of_decode_encode _
theorem get : Statement .get := of_decode_encode _
theorem init (blk : Blk) : Statement (.init blk) := of_decode_encode _
theorem ctrl (blk : Blk) : Statement (.ctrl blk) := of_decode_encode _
theorem close : Statement .close := of_decode_encode _
theorem status : Statement .status := of_decode_encode _

end Sys2Proof.Laws.RoundTrip
end

