-- ==== Sys2Proof/Laws/Run.lean ====
section
/-! SUPPORT. Runs of the machine, one step at a time, and the infinite runs of the agents. -/

namespace Sys2Proof.Machine

@[simp] theorem run_zero (s : State) : Host.Core.run Sys2Proof.core 0 s = .next s := rfl

/-- A run goes on from the state its first step answers. -/
theorem run_succ_of_step {s t : State} (h : step s = .next t) (n : Nat) :
    Host.Core.run Sys2Proof.core (n + 1) s = Host.Core.run Sys2Proof.core n t := by
  have h' : Sys2Proof.core.step s = .next t := h
  simp only [Host.Core.run, h']

/-- A run that answers a state answered one at its first step. -/
theorem step_of_run_succ {s u : State} {n : Nat} (h : Host.Core.run Sys2Proof.core (n + 1) s = .next u) :
    ∃ t, step s = .next t ∧ Host.Core.run Sys2Proof.core n t = .next u := by
  cases hs : step s with
  | next t => exact ⟨t, rfl, by rw [← run_succ_of_step hs, h]⟩
  | fault r =>
    have h' : Sys2Proof.core.step s = .fault r := hs
    simp only [Host.Core.run, h'] at h
    cases h
  | refused r =>
    have h' : Sys2Proof.core.step s = .refused r := hs
    simp only [Host.Core.run, h'] at h
    cases h

/-- A property that every step keeps holds along every run. -/
theorem run_induction {P : State → Prop} (hP : ∀ s t, P s → step s = .next t → P t) {n : Nat} {s u : State} (h0 : P s)
    (h : Host.Core.run Sys2Proof.core n s = .next u) : P u := by
  induction n generalizing s with
  | zero => cases h; exact h0
  | succ n ih =>
    obtain ⟨t, ht, h⟩ := step_of_run_succ h
    exact ih (hP s t h0 ht) h

/-! ## Infinite runs -/

/-- Whether an agent has a move does not depend on the schedule. -/
@[simp] theorem Event.enabled_setInputs (s : State) (es : List Event) (e : Event) :
    e.Enabled (s.setInputs es) ↔ e.Enabled s := by
  cases e with
  | word p w => cases p <;> rfl
  | _ => rfl

/-- What happens at one point of an infinite run: nobody moves, or the move is one of `Taken`. -/
theorem AgentRun.taken {states : Nat → State} {moves : Nat → Option Event} (h : AgentRun states moves) (n : Nat) :
    (moves n = none ∧ states (n + 1) = ((states n).setInputs []).silent) ∨
    ∃ e, moves n = some e ∧ Taken ((states n).setInputs []) e (states (n + 1)) := by
  have hf := h.follows n
  generalize moves n = m at hf ⊢
  obtain ⟨-, ⟨h0, h1⟩ | ⟨e, rest, hin, tk⟩⟩ := step_next hf
  · cases m with
    | none => exact .inl ⟨rfl, h1⟩
    | some e => cases h0
  · cases m with
    | none => cases hin
    | some e' => cases hin; exact .inr ⟨_, rfl, tk⟩

end Sys2Proof.Machine
end

