-- ==== Sys2Proof/Tests/Slice0.lean ====
section
/-! SUPPORT. The model's own tests. Expected results come from `95_test_vectors.md` (the vectors' names are given) or
from the rule named; the theorems `test_witness_…` show that the statement named can be met: a concrete state and
operands for its hypotheses, clause by clause. -/

/-! ## Small states -/

namespace Sys2Proof.Machine

/-- The state with another configuration. -/
def State.on (s : State) (c : Config) : State := { s with cfg := c }

/-- The state with the consumer waiting. -/
def State.waiting (s : State) (y : Sync) (p : Pend) : State := { s with sync := y, pend := p }

/-- `s` after a response `w` on port `p`. -/
def State.said (s : State) (p : Port) (w : Word) : State := { s with resp := some ⟨p, w⟩ }

end Sys2Proof.Machine

namespace Sys2Proof.Tests

open Sys2Proof.Machine

/-- A configuration with one producer, one consumer and no reordering. -/
def config (c r : Nat) (blockDefault atomicSleep : Bool) : Config :=
  ⟨c, r, blockDefault, atomicSleep, 1, 1, true, true⟩

/-- `H=h T=t` with this CTRL and these slots, SYNC=RUN, at C = 32, RESET_INDEX = 1, ATOMIC_SLEEP = true. -/
def mk (h t : Nat) (ctrl : BitVec 8) (data : Memory) : State where
  cfg := config 32 1 false true
  data := data
  head := h
  tail := t
  ctrl := ctrl
  sync := .run
  pend := .none
  inputs := []
  resp := none

/-- What a step answers, if it answers a state. -/
def next? (o : Host.Outcome State Fault Refusal) : Option State :=
  match o with
  | .next s => some s
  | _ => none

/-- The response word a step gives. -/
def word? (o : Host.Outcome State Fault Refusal) : Option Word := ((next? o).bind (·.resp)).map (·.word)

/-- The split-sleep configuration, ATOMIC_SLEEP = false. -/
def split32 : Config := config 32 1 false false

/-- H=T=1 RX=1 BLK=0. -/
def quiet : State := mk 1 1 1#8 []
/-- H=T=1 RX=1 BLK=1. -/
def blocking : State := mk 1 1 3#8 []
/-- H=T=1 RX=0 BLK=0, the reset state. -/
def off : State := mk 1 1 0#8 []
/-- H=T=1 RX=0 BLK=1, CTRL block before INIT. -/
def offBlocking : State := mk 1 1 2#8 []
/-- H=31 T=1 D[31]=0x41 RX=1 BLK=0: one unread byte. -/
def one : State := mk 31 1 1#8 [(31, 0x41#8)]
/-- C = 4, H=2 T=1 D[3]=0x11 D[2]=0x22 RX=1: full with two bytes. -/
def full4 : State := (mk 2 1 1#8 [(2, 0x22#8), (3, 0x11#8)]).on (config 4 1 false true)
/-- H=T=1 RX=1 BLK=1 SYNC=SLEEP PEND=GET. -/
def asleep : State := blocking.waiting .sleep .get
/-- A WAIT before its sleep entry, ATOMIC_SLEEP = false. -/
def drowsy : State := (blocking.waiting .presleep .wait).on split32
/-- One byte unread, woken, with `p` pending. -/
def wokenOn (p : Pend) : State := (mk 31 1 3#8 [(31, 0x41#8)]).waiting .woken p
/-- Woken on an empty buffer with a WAIT pending. -/
def wokenEmpty : State := blocking.waiting .woken .wait

theorem quiet_inv : quiet.Inv := .of_check (by decide)
theorem blocking_inv : blocking.Inv := .of_check (by decide)
theorem off_inv : off.Inv := .of_check (by decide)
theorem offBlocking_inv : offBlocking.Inv := .of_check (by decide)
theorem one_inv : one.Inv := .of_check (by decide)
theorem full4_inv : full4.Inv := .of_check (by decide)
theorem asleep_inv : asleep.Inv := .of_check (by decide)
theorem drowsy_inv : drowsy.Inv := .of_check (by decide)
theorem wokenGet_inv : (wokenOn .get).Inv := .of_check (by decide)
theorem wokenWait_inv : (wokenOn .wait).Inv := .of_check (by decide)
theorem wokenEmpty_inv : wokenEmpty.Inv := .of_check (by decide)

theorem quiet_quiescent : quiet.Quiescent := ⟨quiet_inv.toReady, rfl⟩
theorem blocking_quiescent : blocking.Quiescent := ⟨blocking_inv.toReady, rfl⟩
theorem one_quiescent : one.Quiescent := ⟨one_inv.toReady, rfl⟩
theorem full4_quiescent : full4.Quiescent := ⟨full4_inv.toReady, rfl⟩

/-! ## WellFormed: every check refuses an ill-formed term (rules R55, R5, R8, R121, R39, R47) -/

theorem test_wf_push_on_consumer_port : ¬Instr.WellFormedOn .consumer (.push 0x41#8) := by decide
theorem test_wf_consumer_operations_on_producer_port :
    ∀ i ∈ [Instr.pop, .isempty, .wait, .get, .init .block, .ctrl .neither, .close, .status],
      ¬Instr.WellFormedOn .producer i ∧ Instr.WellFormedOn .consumer i := by decide
theorem test_wf_capacity : (config 2 1 false true).problem = some .capacity ∧ (config 3 1 false true).problem = none := by
  decide
theorem test_wf_resetIndex :
    (config 32 0 false true).problem = some .resetIndex ∧ (config 32 32 false true).problem = some .resetIndex ∧
    (config 32 31 false true).problem = none := by decide
theorem test_wf_agents :
    Config.problem { split32 with producers := 2 } = some .agents ∧
    Config.problem { split32 with consumers := 0 } = some .agents := by decide
theorem test_wf_accesses :
    Config.problem { split32 with atomicIndex := false } = some .indexAccess ∧
    Config.problem { split32 with inOrder := false } = some .reordering := by decide
theorem test_wf_machine_refuses : step (quiet.on (config 2 1 false true)) = .refused (.configuration .capacity) := rfl

/-! ## Decoding: words written out from rules R50, R51, R52 -/

/-- OP 0001, BLK 00, RSV 00, DATA 01000001. -/
theorem test_decode_push : decode .producer 0b0001_00_00_01000001#16 = .instr (.push 0x41#8) := by decide
theorem test_decode_pop : decode .consumer 0b0010_00_00_00000000#16 = .instr .pop := by decide
theorem test_decode_isempty : decode .consumer 0b0011_00_00_00000000#16 = .instr .isempty := by decide
theorem test_decode_wait : decode .consumer 0b0100_00_00_00000000#16 = .instr .wait := by decide
theorem test_decode_get : decode .consumer 0b0101_00_00_00000000#16 = .instr .get := by decide
theorem test_decode_init :
    decode .consumer 0b0110_00_00_00000000#16 = .instr (.init .neither) ∧
    decode .consumer 0b0110_01_00_00000000#16 = .instr (.init .block) ∧
    decode .consumer 0b0110_10_00_00000000#16 = .instr (.init .noblock) ∧
    decode .consumer 0b0110_11_00_00000000#16 = .instr (.init .both) := by decide
theorem test_decode_ctrl :
    decode .consumer 0b0111_00_00_00000000#16 = .instr (.ctrl .neither) ∧
    decode .consumer 0b0111_01_00_00000000#16 = .instr (.ctrl .block) ∧
    decode .consumer 0b0111_10_00_00000000#16 = .instr (.ctrl .noblock) ∧
    decode .consumer 0b0111_11_00_00000000#16 = .instr (.ctrl .both) := by decide
theorem test_decode_close : decode .consumer 0b1000_00_00_00000000#16 = .instr .close := by decide
theorem test_decode_status : decode .consumer 0b1001_00_00_00000000#16 = .instr .status := by decide

/-- §2.2, step 1. -/
theorem test_decode_reserved :
    decode .producer 0x0000#16 = .illegal .reservedOp ∧ decode .consumer 0x0000#16 = .illegal .reservedOp ∧
    decode .consumer 0xA000#16 = .illegal .reservedOp ∧ decode .producer 0xFFFF#16 = .illegal .reservedOp := by decide
/-- §2.2, step 2. -/
theorem test_decode_wrong_port :
    decode .consumer 0x1041#16 = .illegal .wrongPort ∧ decode .producer 0x2000#16 = .illegal .wrongPort ∧
    decode .producer 0x6C00#16 = .illegal .wrongPort := by decide
/-- §2.2, step 3. -/
theorem test_decode_unused :
    decode .producer 0x1141#16 = .illegal .unusedField ∧ decode .producer 0x1441#16 = .illegal .unusedField ∧
    decode .consumer 0x2001#16 = .illegal .unusedField ∧ decode .consumer 0x3100#16 = .illegal .unusedField ∧
    decode .consumer 0x4400#16 = .illegal .unusedField ∧ decode .consumer 0x6001#16 = .illegal .unusedField ∧
    decode .consumer 0x6200#16 = .illegal .unusedField ∧ decode .consumer 0x6C01#16 = .illegal .unusedField ∧
    decode .consumer 0x8001#16 = .illegal .unusedField ∧ decode .consumer 0x9800#16 = .illegal .unusedField := by
  decide
/-- V-D1: an ILLEGAL word on the producer port is no wake event. -/
theorem test_illegal_word_does_not_wake :
    next? (step (asleep.facing (.word .producer 0x1141#16) [])) = some (asleep.said .producer 0x5000#16) := by decide
/-- Rule R63's words, from the operations. -/
theorem test_encode :
    encode (.push 0xFF#8) = 0x10FF#16 ∧ encode .get = 0x5000#16 ∧ encode (.init .noblock) = 0x6800#16 ∧
    encode (.ctrl .both) = 0x7C00#16 := by decide

/-! ## Index arithmetic (§2.1) -/

theorem test_next :
    nextIndex 32 1 = 31 ∧ nextIndex 32 2 = 1 ∧ nextIndex 32 16 = 15 ∧ nextIndex 32 31 = 30 ∧
    nextIndex 4 1 = 3 ∧ nextIndex 4 3 = 2 ∧ nextIndex 4 2 = 1 ∧ nextIndex 3 1 = 2 ∧ nextIndex 3 2 = 1 := by decide
theorem test_next_iterated :
    nextIter 32 1 1 = 31 ∧ nextIter 32 2 1 = 30 ∧ nextIter 32 29 1 = 3 ∧ nextIter 32 30 1 = 2 ∧ nextIter 32 31 1 = 1 := by
  decide
theorem test_count :
    (mk 1 1 0#8 []).count = 0 ∧ (mk 31 1 0#8 []).count = 1 ∧ (mk 2 1 0#8 []).count = 30 ∧ (mk 1 2 0#8 []).count = 1 ∧
    (mk 30 5 0#8 []).count = 6 ∧ (mk 6 5 0#8 []).count = 30 ∧ full4.count = 2 ∧
    ((mk 1 2 0#8 []).on (config 3 1 false true)).count = 1 := by decide
theorem test_flags :
    (mk 1 1 0#8 []).empty = true ∧ (mk 1 1 0#8 []).full = false ∧ (mk 2 1 0#8 []).full = true ∧
    (mk 6 5 0#8 []).full = true ∧ (mk 1 2 0#8 []).full = false ∧ (mk 1 2 0#8 []).empty = false ∧
    ((mk 1 2 0#8 []).on (config 3 1 false true)).full = true := by decide

/-! ## One step of each operation -/

/-- V-P6: HEAD wraps from 1 to C-1. -/
theorem test_push_wraps :
    next? (exec (.push 0xFF#8) (mk 1 2 1#8 [(1, 0x22#8)])) =
      some ((mk 31 2 1#8 [(1, 0x22#8), (31, 0xFF#8)]).said .producer 0x0000#16) := by decide
/-- V-P9: a dropped PUSH wakes a sleeper, and nothing else changes. -/
theorem test_push_dropped_wakes :
    next? (exec (.push 0x33#8) (((mk 2 1 3#8 []).waiting .sleep .wait).on split32)) =
      some ((((mk 2 1 3#8 []).waiting .woken .wait).on split32).said .producer 0x2000#16) := by decide
/-- V-Q5: TAIL goes to 1, the byte at the new TAIL is returned and its slot keeps it. -/
theorem test_pop_reads_at_new_tail :
    next? (exec .pop (mk 1 2 1#8 [(1, 0x22#8)])) = some ((mk 1 1 1#8 [(1, 0x22#8)]).said .consumer 0x0022#16) := by decide
/-- V-Q2: an empty buffer. -/
theorem test_pop_empty :
    next? (exec .pop (mk 7 7 1#8 [])) = some ((mk 7 7 1#8 []).said .consumer 0x1000#16) := by decide
/-- V-E1 and V-E3. -/
theorem test_isempty :
    next? (exec .isempty quiet) = some (quiet.said .consumer 0x0001#16) ∧ word? (exec .isempty full4) = some 0x0000#16 := by
  decide
/-- V-S2 and V-S3. -/
theorem test_status :
    next? (exec .status blocking) = some (blocking.said .consumer 0x000D#16) ∧
    word? (exec .status (mk 2 1 3#8 [])) = some 0x000E#16 := by decide
/-- V-W1 and V-W2. -/
theorem test_wait_answers :
    next? (exec .wait one) = some (one.said .consumer 0x0000#16) ∧
    next? (exec .wait quiet) = some (quiet.said .consumer 0x3000#16) := by decide
/-- V-W3 and V-W8. -/
theorem test_wait_sleeps :
    next? (exec .wait blocking) = some (blocking.waiting .sleep .wait) ∧
    next? (exec .wait (blocking.on split32)) = some drowsy := by decide
/-- V-G2: GET never sleeps on data. -/
theorem test_get_pops :
    next? (exec .get (mk 31 1 3#8 [(31, 0x41#8)])) =
      some ((mk 31 31 3#8 [(31, 0x41#8)]).said .consumer 0x0041#16) := by decide
/-- V-G3 and V-G4. -/
theorem test_get_empty :
    next? (exec .get quiet) = some (quiet.said .consumer 0x3000#16) ∧ next? (exec .get blocking) = some asleep := by decide
/-- V-I6, RESET_INDEX = 5, and V-I4, BLOCK_DEFAULT = 1. -/
theorem test_init :
    next? (exec (.init .noblock) ((mk 5 5 0#8 []).on (config 32 5 false true))) =
      some (((mk 5 5 1#8 []).on (config 32 5 false true)).said .consumer 0x0000#16) ∧
    next? (exec (.init .neither) (off.on (config 32 1 true true))) =
      some ((blocking.on (config 32 1 true true)).said .consumer 0x0000#16) := by decide
/-- V-I5. -/
theorem test_init_conflict : next? (exec (.init .both) off) = some (off.said .consumer 0x4000#16) := by decide
/-- V-C1 and V-C5: the byte kept, RX_EN kept. -/
theorem test_ctrl_block :
    next? (exec (.ctrl .block) one) = some ((mk 31 1 3#8 [(31, 0x41#8)]).said .consumer 0x0000#16) ∧
    next? (exec (.ctrl .block) off) = some (offBlocking.said .consumer 0x0000#16) := by decide
/-- V-C3 and V-C4. -/
theorem test_ctrl_no_change :
    next? (exec (.ctrl .neither) blocking) = some (blocking.said .consumer 0x0000#16) ∧
    next? (exec (.ctrl .both) blocking) = some (blocking.said .consumer 0x4000#16) := by decide
/-- V-X1. -/
theorem test_close : next? (exec .close one) = some (one.said .consumer 0x0000#16) := by decide

/-! ## One step of each transition without a word -/

/-- V-W4 and V-W9: IRQX wakes from SLEEP, and is lost in PRESLEEP. -/
theorem test_irqx :
    next? (step (asleep.facing .irqx [])) = some (blocking.waiting .woken .get) ∧
    next? (step (drowsy.facing .irqx [])) = some drowsy := by decide
/-- V-W10. -/
theorem test_sleep : next? (step (drowsy.facing .sleep [])) = some ((blocking.waiting .sleep .wait).on split32) := by decide
/-- V-G6, with one byte. -/
theorem test_recheck_get :
    next? (step ((wokenOn .get).facing .recheck [])) =
      some ((mk 31 31 3#8 [(31, 0x41#8)]).said .consumer 0x0041#16) := by decide
/-- V-W7, and V-W12 and V-W5: a spurious wake. -/
theorem test_recheck_wait :
    next? (step ((wokenOn .wait).facing .recheck [])) = some ((mk 31 1 3#8 [(31, 0x41#8)]).said .consumer 0x0000#16) ∧
    next? (step ((wokenEmpty.on split32).facing .recheck [])) = some drowsy ∧
    next? (step (wokenEmpty.facing .recheck [])) = some (blocking.waiting .sleep .wait) := by decide
/-- V-R2 at RESET_INDEX = 1: the WAIT gets no response. -/
theorem test_reset :
    next? (step (((mk 5 5 3#8 [(5, 0x99#8)]).waiting .sleep .wait).facing .reset [])) = some off := by decide
/-- V-P7: an arriving byte wakes the sleeper. -/
theorem test_rx :
    next? (step (asleep.facing (.rx 0x41#8) [])) = some ((wokenOn .get).said .producer 0x0000#16) := by decide

/-! ## The first instruction after reset -/

/-- V-P5 and V-S1, from the machine's own reset state. -/
theorem test_first_instruction :
    word? (step (State.reset.withFetchWord 16 0x1041)) = some 0x6000#16 ∧
    word? (step (State.reset.withFetchWord 16 0x9000)) = some 0x0001#16 := by decide
theorem test_table_words :
    decodeTableWord 16 0x1041 = some (.push 0x41#8) ∧ decodeTableWord 16 0x7400 = some (.ctrl .block) ∧
    decodeTableWord 16 0xA000 = none ∧ decodeTableWord 8 0x2000 = none := by decide

/-! ## Witnesses -/

/-- HEAD at the unused index 0. -/
def outOfRange : State := mk 0 1 1#8 []

/-- C = 3, one byte unread and full: the smallest buffer. -/
def full3 : State := (mk 2 1 1#8 [(2, 0x41#8)]).on (config 3 1 false true)
/-- C = 32, COUNT = 29: one PUSH from full. (A PUSH reads no slot, so none is written out.) -/
def almostFull : State := mk 3 1 1#8 []
/-- One byte unread in a slot that holds no value: no run reaches it. -/
def unwritten : State := mk 31 1 1#8 []
/-- Asleep on data after a lost wakeup (P3 step 4). -/
def lost : State := ((mk 31 1 3#8 [(31, 0x31#8)]).waiting .sleep .wait).on split32
/-- The one unread byte of `one`, standing elsewhere and with other slots written. -/
def oneElsewhere : State := (mk 4 5 1#8 [(4, 0x41#8), (9, 0x77#8)]).on (config 32 7 false true)

theorem full3_inv : full3.Inv := .of_check (by decide)
theorem lost_inv : lost.Inv := .of_check (by decide)
theorem oneElsewhere_inv : oneElsewhere.Inv := .of_check (by decide)
theorem almostFull_ready : almostFull.Ready := ⟨by decide, by decide⟩
theorem unwritten_ready : unwritten.Ready := ⟨by decide, by decide⟩
theorem off_quiescent : off.Quiescent := ⟨off_inv.toReady, rfl⟩
theorem offBlocking_quiescent : offBlocking.Quiescent := ⟨offBlocking_inv.toReady, rfl⟩
theorem full3_quiescent : full3.Quiescent := ⟨full3_inv.toReady, rfl⟩

/-- The first and last word of each reason, at the edges of the ranges. -/
theorem test_witness_IllegalWordsAreAnsweredAndDropped :
    decode .consumer 0x0FFF#16 = .illegal .reservedOp ∧ decode .producer 0xA000#16 = .illegal .reservedOp ∧
    decode .consumer 0x1000#16 = .illegal .wrongPort ∧ decode .producer 0x9FFF#16 = .illegal .wrongPort ∧
    decode .producer 0x1100#16 = .illegal .unusedField ∧ decode .consumer 0x63FF#16 = .illegal .unusedField ∧
    decode .consumer 0x9001#16 = .illegal .unusedField ∧ quiet.Ready ∧ asleep.Ready ∧ quiet.sync = .run := by
  exact ⟨by decide, by decide, by decide, by decide, by decide, by decide, by decide, quiet_inv.toReady,
    asleep_inv.toReady, rfl⟩

theorem test_witness_StepRunsTheDecodedOperation :
    decode .consumer 0x6C00#16 = .instr (.init .both) ∧ decode .producer 0x10FF#16 = .instr (.push 0xFF#8) ∧
    decodeTableWord 16 0x10FF = some (.push 0xFF#8) ∧ decodeTableWord 16 0x9000 = some .status := by decide

theorem test_witness_ResponseWordsAreWellFormed :
    ∃ t r, step (one.facing (.word .consumer 0x2000#16) []) = .next t ∧ t.resp = some r ∧ isOk r.word = true :=
  ⟨_, _, rfl, rfl, rfl⟩

theorem test_witness_NextDecrementsAndWraps :
    legalIndex 3 1 ∧ legalIndex 3 2 ∧ legalIndex 32 1 ∧ legalIndex 32 2 ∧ legalIndex 32 31 ∧ ¬legalIndex 32 32 := by decide

theorem test_witness_NextIsOneCycle :
    legalIndex 3 1 ∧ legalIndex 3 2 ∧ legalIndex 32 31 ∧ nextIter 3 2 1 = 1 ∧ nextIter 3 1 1 ≠ 1 := by decide

/-- Empty, in between, and full. -/
theorem test_witness_CountIsTheDistanceFromTailToHead :
    quiet.Ready ∧ quiet.count = 0 ∧ one.Ready ∧ one.count = 1 ∧ full4.Ready ∧ full4.count = 2 ∧ full3.Ready :=
  ⟨quiet_inv.toReady, rfl, one_inv.toReady, rfl, full4_inv.toReady, rfl, full3_inv.toReady⟩

theorem test_witness_EmptyAndFullAreDisjoint :
    full3.Ready ∧ full3.full = true ∧ quiet.Ready ∧ quiet.empty = true ∧ legalIndex 3 2 :=
  ⟨full3_inv.toReady, rfl, quiet_inv.toReady, rfl, by decide⟩

theorem test_witness_IndicesFitTheirRegisters : one.Ready ∧ one.head = 31 ∧ full3.Ready :=
  ⟨one_inv.toReady, rfl, full3_inv.toReady⟩

theorem test_witness_PowerOnValues :
    (config 3 2 true false).WellFormed ∧ (config 32 31 false true).WellFormed ∧ Config.default.WellFormed := by decide

theorem test_witness_ResetEndsEverythingSilently : asleep.Ready ∧ lost.Ready ∧ full4.Ready :=
  ⟨asleep_inv.toReady, lost_inv.toReady, full4_inv.toReady⟩

theorem test_witness_ResetMeetsTheInvariant : (config 3 1 true true).WellFormed := by decide

theorem test_witness_EveryStepKeepsTheInvariant :
    (∃ t, (one.facing (.rx 0x42#8) []).Inv ∧ step (one.facing (.rx 0x42#8) []) = .next t) ∧
    (∃ t, (lost.facing .irqx []).Inv ∧ step (lost.facing .irqx []) = .next t) :=
  ⟨⟨_, one_inv.setInputs _, rfl⟩, ⟨_, lost_inv.setInputs _, rfl⟩⟩

theorem test_witness_TheInvariantExcludesEveryFault :
    ((wokenOn .get).facing .recheck []).Inv ∧ (full3.facing (.rx 0x42#8) []).Inv :=
  ⟨wokenGet_inv.setInputs _, full3_inv.setInputs _⟩

/-- Each kind of move an agent has; then what is no agent's move: PUSH on the consumer port, POP on the producer port, a
word of no operation (each answered ILLEGAL), and a consumer word and the two synchronizer steps out of their state. -/
theorem test_witness_ExactlyTheEnabledMovesAreTaken :
    Event.Enabled quiet (.word .consumer 0x2000#16) ∧ Event.Enabled drowsy .sleep ∧
    Event.Enabled wokenEmpty .recheck ∧ Event.Enabled asleep .irqx ∧ Event.Enabled asleep .reset ∧
    Event.Enabled asleep (.rx 0x41#8) ∧ Event.Enabled asleep (.word .producer 0x1041#16) ∧
    ¬Event.Enabled quiet (.word .consumer 0x1041#16) ∧ ¬Event.Enabled quiet (.word .producer 0x2000#16) ∧
    ¬Event.Enabled quiet (.word .consumer 0x0000#16) ∧
    ¬Event.Enabled asleep (.word .consumer 0x2000#16) ∧ ¬Event.Enabled asleep .sleep ∧
    ¬Event.Enabled drowsy .recheck := by
  refine ⟨⟨rfl, _, rfl⟩, rfl, rfl, trivial, trivial, trivial, ⟨_, rfl⟩, ?_, ?_, ?_, ?_, ?_, ?_⟩
  · rintro ⟨-, i, h⟩; cases h
  · rintro ⟨b, h⟩; cases h
  · rintro ⟨-, i, h⟩; cases h
  · rintro ⟨h, -⟩; cases h
  · intro h; cases h
  · intro h; cases h

theorem test_witness_BadConfigurationsAreRefused :
    step (quiet.on (config 2 1 false true)) = .refused (.configuration .capacity) ∧
    step (quiet.on (config 32 0 false true)) = .refused (.configuration .resetIndex) ∧
    step (quiet.on (config 32 32 false true)) = .refused (.configuration .resetIndex) ∧
    step (quiet.on { split32 with producers := 0 }) = .refused (.configuration .agents) ∧
    step (quiet.on { split32 with consumers := 2 }) = .refused (.configuration .agents) ∧
    step (quiet.on { split32 with atomicIndex := false }) = .refused (.configuration .indexAccess) ∧
    step (quiet.on { split32 with inOrder := false }) = .refused (.configuration .reordering) :=
  ⟨rfl, rfl, rfl, rfl, rfl, rfl, rfl⟩

theorem test_witness_IndexOutOfRangeIsAFault :
    outOfRange.cfg.WellFormed ∧ ¬outOfRange.indexOk ∧ ¬(mk 1 32 1#8 []).indexOk := by decide

theorem test_witness_PushIsLostWhileReceiveIsOff :
    off.Ready ∧ off.rxEn = false ∧ (offBlocking.waiting .sleep .get).Ready :=
  ⟨off_inv.toReady, rfl, ⟨by decide, by decide⟩⟩

theorem test_witness_PushIsDroppedWhenFull :
    full3.Ready ∧ full3.rxEn = true ∧ full3.full = true ∧ full4.Ready ∧ full4.full = true :=
  ⟨full3_inv.toReady, rfl, rfl, full4_inv.toReady, rfl⟩

theorem test_witness_PushStoresAtTheNewHead :
    quiet.Ready ∧ quiet.rxEn = true ∧ quiet.full = false ∧ almostFull.Ready ∧ almostFull.rxEn = true ∧
    almostFull.full = false ∧ almostFull.count = almostFull.cfg.capacity - 3 :=
  ⟨quiet_inv.toReady, rfl, rfl, almostFull_ready, rfl, rfl, rfl⟩

theorem test_witness_PushNeverWaits : asleep.Ready ∧ full3.Ready ∧ off.Ready :=
  ⟨asleep_inv.toReady, full3_inv.toReady, off_inv.toReady⟩

/-- An accepted PUSH beside an unread byte, and a dropped one. -/
theorem test_witness_PushNeverOverwritesUnreadData :
    one.Ready ∧ (∃ t, exec (.push 0x42#8) one = .next t ∧ t.head ≠ one.head) ∧ one.unread 31 ∧
    full3.Ready ∧ (∃ t, exec (.push 0x42#8) full3 = .next t) ∧ full3.full = true :=
  ⟨one_inv.toReady, ⟨_, rfl, by decide⟩, by decide, full3_inv.toReady, ⟨_, rfl⟩, rfl⟩

theorem test_witness_PopOfAnEmptyBufferAnswersEmpty :
    quiet.Quiescent ∧ quiet.empty = true ∧ blocking.Quiescent ∧ blocking.empty = true :=
  ⟨quiet_quiescent, rfl, blocking_quiescent, rfl⟩

theorem test_witness_PopReturnsTheOldestByte :
    one.Quiescent ∧ one.empty = false ∧ Memory.read one.data (nextIndex one.cfg.capacity one.tail) = some 0x41#8 ∧
    full4.Quiescent ∧ full4.empty = false ∧
    Memory.read full4.data (nextIndex full4.cfg.capacity full4.tail) = some 0x11#8 :=
  ⟨one_quiescent, rfl, rfl, full4_quiescent, rfl, rfl⟩

theorem test_witness_IsemptyAnswersTheFlag : quiet.Quiescent ∧ quiet.head = quiet.tail ∧ one.Quiescent ∧ one.head ≠ one.tail :=
  ⟨quiet_quiescent, rfl, one_quiescent, by decide⟩

theorem test_witness_StatusAnswersFlagsAndControl : quiet.Quiescent ∧ full4.Quiescent ∧ offBlocking.Quiescent :=
  ⟨quiet_quiescent, full4_quiescent, offBlocking_quiescent⟩

theorem test_witness_ASlotWithoutValueIsNeverReturned :
    unwritten.Ready ∧ unwritten.empty = false ∧
    Memory.read unwritten.data (nextIndex unwritten.cfg.capacity unwritten.tail) = none ∧ unwritten.sync = .run ∧
    (unwritten.waiting .woken .get).Ready :=
  ⟨unwritten_ready, rfl, rfl, rfl, ⟨by decide, by decide⟩⟩

theorem test_witness_ReadingOperationsAreIdempotent :
    (∃ t, exec .isempty one = .next t) ∧ (∃ t, exec .status one = .next t) ∧ (∃ t, exec .close one = .next t) ∧
    (∃ t, exec .wait one = .next t) ∧ one.empty = false := ⟨⟨_, rfl⟩, ⟨_, rfl⟩, ⟨_, rfl⟩, ⟨_, rfl⟩, rfl⟩

/-- Data; empty with BLOCK = 0; empty with BLOCK = 1. -/
theorem test_witness_WaitChecksThenAnswersOrSleeps :
    one.Quiescent ∧ one.empty = false ∧ quiet.Quiescent ∧ quiet.empty = true ∧ quiet.block = false ∧
    blocking.Quiescent ∧ blocking.empty = true ∧ blocking.block = true ∧ (blocking.on split32).Quiescent :=
  ⟨one_quiescent, rfl, quiet_quiescent, rfl, rfl, blocking_quiescent, rfl, rfl, ⟨⟨by decide, by decide⟩, rfl⟩⟩

theorem test_witness_GetChecksThenReturnsOrSleeps :
    one.Quiescent ∧ one.empty = false ∧ Memory.read one.data (nextIndex one.cfg.capacity one.tail) = some 0x41#8 ∧
    quiet.Quiescent ∧ quiet.empty = true ∧ quiet.block = false ∧
    blocking.Quiescent ∧ blocking.empty = true ∧ blocking.block = true :=
  ⟨one_quiescent, rfl, rfl, quiet_quiescent, rfl, rfl, blocking_quiescent, rfl, rfl⟩

theorem test_witness_SleepEntryIsUnconditional : drowsy.Ready ∧ drowsy.sync = .presleep := ⟨drowsy_inv.toReady, rfl⟩

theorem test_witness_RecheckCompletesOrSleepsAgain :
    quiet.Ready ∧ quiet.sync ≠ .woken ∧
    (wokenOn .wait).Ready ∧ (wokenOn .wait).sync = .woken ∧ (wokenOn .wait).empty = false ∧ (wokenOn .wait).pend = .wait ∧
    (wokenOn .get).Ready ∧ (wokenOn .get).pend = .get ∧
    Memory.read (wokenOn .get).data (nextIndex (wokenOn .get).cfg.capacity (wokenOn .get).tail) = some 0x41#8 ∧
    wokenEmpty.Ready ∧ wokenEmpty.sync = .woken ∧ wokenEmpty.empty = true :=
  ⟨quiet_inv.toReady, by decide, wokenWait_inv.toReady, rfl, rfl, rfl, wokenGet_inv.toReady, rfl, rfl,
    wokenEmpty_inv.toReady, rfl, rfl⟩

theorem test_witness_ForeignInterruptOnlyWakes : asleep.Ready ∧ drowsy.Ready ∧ quiet.Ready :=
  ⟨asleep_inv.toReady, drowsy_inv.toReady, quiet_inv.toReady⟩

/-- A consumer move; a move that lifts the hold; each kind of wake event; and a byte that is no wake event. -/
theorem test_witness_OnlyWakeEventsAndResetLiftTheSleep :
    asleep.Ready ∧ asleep.sync = .sleep ∧ Event.ofConsumer .recheck = true ∧
    (∃ t, step (asleep.facing .reset []) = .next t ∧ t.sync ≠ .sleep) ∧
    Event.wakes asleep .irqx ∧ Event.wakes asleep (.rx 0x41#8) ∧
    (∃ t, step ((offBlocking.waiting .sleep .get).facing (.rx 0x41#8) []) = .next t ∧ t.sync = .sleep) :=
  ⟨asleep_inv.toReady, rfl, rfl, ⟨_, rfl, by decide⟩, .inl rfl, .inr ⟨rfl, _, .inr ⟨_, rfl, rfl⟩⟩, ⟨_, rfl, rfl⟩⟩

/-- The three ways in. -/
theorem test_witness_SleepIsEnteredOnlyByTheSynchronizer :
    (∃ t, drowsy.sync ≠ .sleep ∧ step (drowsy.facing .sleep []) = .next t ∧ t.sync = .sleep) ∧
    (∃ t, blocking.sync ≠ .sleep ∧ step (blocking.facing (.word .consumer 0x5000#16) []) = .next t ∧ t.sync = .sleep) ∧
    (∃ t, wokenEmpty.sync ≠ .sleep ∧ step (wokenEmpty.facing .recheck []) = .next t ∧ t.sync = .sleep) :=
  ⟨⟨_, by decide, rfl, rfl⟩, ⟨_, by decide, rfl, rfl⟩, ⟨_, by decide, rfl, rfl⟩⟩

theorem test_witness_ConsumerIsAnsweredWhenItsOperationEnds :
    one.Inv ∧ (∃ t, step (one.facing (.word .consumer 0x2000#16) []) = .next t ∧ t.sync = .run) ∧
    blocking.Inv ∧ (∃ t, step (blocking.facing (.word .consumer 0x4000#16) []) = .next t ∧ t.sync ≠ .run) ∧
    (∃ t, step (one.facing (.rx 0x42#8) []) = .next t) :=
  ⟨one_inv, ⟨_, rfl, rfl⟩, blocking_inv, ⟨_, rfl, by decide⟩, ⟨_, rfl⟩⟩

theorem test_witness_SpuriousWakesReturnToSleep :
    asleep.Ready ∧ asleep.sync = .sleep ∧ asleep.empty = true ∧ asleep.cfg.atomicSleep = true ∧
    ((blocking.waiting .sleep .wait).on split32).Ready ∧ full3.rxEn = true ∧
    ((blocking.waiting .sleep .wait).on split32).cfg.atomicSleep = false ∧
    (∃ t, exec (.push 0x42#8) full3 = .next t) ∧ (∃ t, exec (.push 0x42#8) quiet = .next t) :=
  ⟨asleep_inv.toReady, rfl, rfl, rfl, ⟨by decide, by decide⟩, rfl, rfl, ⟨_, rfl⟩, ⟨_, rfl⟩⟩

theorem test_witness_AWaitWithoutDataNeverEnds :
    (asleep.facing .irqx [.recheck]).Inv ∧ asleep.sync ≠ .run ∧ asleep.empty = true ∧
    (∀ e ∈ [Event.irqx, .recheck], e.pushed = none ∧ e ≠ .reset) ∧
    ∃ t, Sys2Proof.core.run 1 (asleep.facing .irqx [.recheck]) = .next t :=
  ⟨asleep_inv.setInputs _, by decide, by decide, by decide, ⟨_, rfl⟩⟩

theorem test_witness_BeforeInitNothingIsReceived :
    off.Inv ∧ off.sync = .run ∧ off.rxEn = false ∧ off.block = false ∧
    offBlocking.Inv ∧ offBlocking.sync = .run ∧ offBlocking.rxEn = false ∧ offBlocking.block = true ∧
    (offBlocking.waiting .sleep .get).Inv ∧
    ∃ t, Sys2Proof.core.run 1 ((offBlocking.waiting .sleep .get).facing (.rx 0x41#8) []) = .next t :=
  ⟨off_inv, rfl, rfl, rfl, offBlocking_inv, rfl, rfl, rfl, .of_check (by decide), ⟨_, rfl⟩⟩

theorem test_witness_AByteBeforeSleepEntryDoesNotStopTheSleep :
    drowsy.Inv ∧ drowsy.sync = .presleep ∧ drowsy.rxEn = true := ⟨drowsy_inv, rfl, rfl⟩

/-- Each of the three forms, with both values of BLOCK_DEFAULT. -/
theorem test_witness_InitEmptiesAndEnablesReceive :
    one.Quiescent ∧ one.cfg.blockDefault = false ∧ (one.on (config 32 1 true true)).Quiescent ∧ off.Quiescent :=
  ⟨one_quiescent, rfl, ⟨⟨by decide, by decide⟩, rfl⟩, off_quiescent⟩

theorem test_witness_CtrlSetsBlockAlone : one.Quiescent ∧ one.block = false ∧ blocking.Quiescent ∧ blocking.block = true :=
  ⟨one_quiescent, rfl, blocking_quiescent, rfl⟩

theorem test_witness_CtrlKeepsTheUnreadBytes :
    (∃ t, exec (.ctrl .block) one = .next t) ∧ (∃ t, exec (.ctrl .both) one = .next t) := ⟨⟨_, rfl⟩, ⟨_, rfl⟩⟩

theorem test_witness_ConflictingPairIsInvalid : off.Quiescent ∧ one.Quiescent := ⟨off_quiescent, one_quiescent⟩

theorem test_witness_CloseChangesNothing : off.Quiescent ∧ full4.Quiescent := ⟨off_quiescent, full4_quiescent⟩

/-- A move of each of the writers, changing what it may. -/
theorem test_witness_EachRegisterHasItsOwnWriters :
    (∃ t, step (one.facing (.rx 0x42#8) []) = .next t ∧ t.head ≠ one.head) ∧
    (∃ t, step (one.facing (.word .consumer 0x2000#16) []) = .next t ∧ t.tail ≠ one.tail) ∧
    (∃ t, step ((wokenOn .get).facing .recheck []) = .next t ∧ t.tail ≠ (wokenOn .get).tail) ∧
    (∃ t, step (off.facing (.word .consumer 0x6400#16) []) = .next t ∧ t.rxEn ≠ off.rxEn ∧ t.block ≠ off.block) ∧
    (∃ t, step (blocking.facing .reset []) = .next t ∧ t.rxEn ≠ blocking.rxEn) :=
  ⟨⟨_, rfl, by decide⟩, ⟨_, rfl, by decide⟩, ⟨_, rfl, by decide⟩, ⟨_, rfl, by decide, by decide⟩, ⟨_, rfl, by decide⟩⟩

theorem test_witness_NonOkResponseChangesNoBufferState :
    (∃ t r, step (quiet.facing (.word .consumer 0x2000#16) []) = .next t ∧ t.resp = some r ∧ isOk r.word = false) ∧
    (∃ t r, step (((mk 2 1 3#8 []).waiting .sleep .wait).facing (.rx 0x33#8) []) = .next t ∧ t.resp = some r ∧
      isOk r.word = false ∧ t.sync = .woken) := ⟨⟨_, _, rfl, rfl, rfl⟩, ⟨_, _, rfl, rfl, rfl, rfl⟩⟩

/-- Each of the six causes. -/
theorem test_witness_EveryNonOkResponseHasItsCause :
    word? (step (quiet.facing (.word .consumer 0x2000#16) [])) = some 0x1000#16 ∧
    word? (step (full3.facing (.rx 0x42#8) [])) = some 0x2000#16 ∧
    word? (step (quiet.facing (.word .consumer 0x5000#16) [])) = some 0x3000#16 ∧
    word? (step (quiet.facing (.word .consumer 0x7C00#16) [])) = some 0x4000#16 ∧
    word? (step (quiet.facing (.word .consumer 0x0000#16) [])) = some 0x5000#16 ∧
    word? (step (off.facing (.rx 0x42#8) [])) = some 0x6000#16 := by decide

/-- INIT; an accepted PUSH; a byte returned; a dropped PUSH. -/
theorem test_witness_CountFollowsTheResponses :
    one.Inv ∧ full3.Inv ∧
    (∃ t, step (one.facing (.word .consumer 0x6000#16) []) = .next t ∧ Event.clears (.word .consumer 0x6000#16) = true) ∧
    (∃ t, step (one.facing (.rx 0x42#8) []) = .next t ∧ Answered t .producer 0x0000#16) ∧
    (∃ t, step (one.facing (.word .consumer 0x5000#16) []) = .next t ∧
      Event.takes (.word .consumer 0x5000#16) one = true ∧ Answered t .consumer 0x0041#16) ∧
    (∃ t, step (full3.facing (.rx 0x42#8) []) = .next t ∧ Answered t .producer 0x2000#16) :=
  ⟨one_inv, full3_inv, ⟨_, rfl, by decide⟩, ⟨_, rfl, rfl⟩, ⟨_, rfl, by decide, rfl⟩, ⟨_, rfl, rfl⟩⟩

theorem test_witness_BytesReturnInTheOrderTheyWereAccepted :
    (config 4 1 false true).WellFormed ∧
    ∃ t h, runHistory 3 ((State.powerOn (config 4 1 false true)).setInputs
      [.word .consumer 0x6800#16, .rx 0x41#8, .word .consumer 0x2000#16]) ⟨[], []⟩ = some (t, h) ∧
      h = ⟨[0x41#8], [0x41#8]⟩ := ⟨by decide, ⟨_, _, rfl, by decide⟩⟩

/-- A history that fits, with a byte returned before; an accepted PUSH; an idle step; and a legal configuration. -/
theorem test_witness_EveryStepKeepsTheFifoLaw :
    one.Inv ∧ History.Fits ⟨[0x40#8, 0x41#8], [0x40#8]⟩ one ∧
    (∃ t, step (one.facing (.rx 0x42#8) []) = .next t ∧
      History.record ⟨[0x40#8, 0x41#8], [0x40#8]⟩ (.rx 0x42#8) one t = ⟨[0x40#8, 0x41#8, 0x42#8], [0x40#8]⟩) ∧
    one.inputs = [] ∧ (∃ t, step one = .next t) ∧ (config 3 2 true false).WellFormed :=
  ⟨one_inv, rfl, ⟨_, rfl, by decide⟩, rfl, ⟨_, rfl⟩, by decide⟩

theorem test_witness_PortsCannotTellWhereBytesStand :
    one.Inv ∧ oneElsewhere.Inv ∧ PortEqual one oneElsewhere ∧ one.head ≠ oneElsewhere.head :=
  ⟨one_inv, oneElsewhere_inv, ⟨rfl, rfl, rfl, by decide, rfl, rfl, rfl, rfl, rfl⟩, by decide⟩

theorem test_witness_SplitPopIsAtomicAtItsWrite :
    one.Inv ∧ one.sync = .run ∧ one.empty = false ∧
    ∃ s₁ s₂, pushAll [0x42#8] one = some s₁ ∧ pushAll [0x43#8] s₁ = some s₂ := ⟨one_inv, rfl, rfl, ⟨_, _, rfl, rfl⟩⟩

theorem test_witness_SplitPopIsAtomicAtItsTest :
    one.Inv ∧ one.sync = .run ∧ one.empty = false ∧
    ∃ s₁ s₂ p u, pushAll [] one = some s₁ ∧ pushAll [0x42#8] s₁ = some s₂ ∧ exec .pop one = .next p ∧
      pushAll ([] ++ [0x42#8]) p = some u := ⟨one_inv, rfl, rfl, ⟨_, _, _, _, rfl, rfl, rfl, rfl⟩⟩

theorem test_witness_NothingMovesWithoutASchedule : asleep.Ready ∧ asleep.inputs = [] := ⟨asleep_inv.toReady, rfl⟩

/-! ## Infinite runs -/

/-- A GET asleep, its byte, its re-check, and then nothing for ever. -/
def getStates : Nat → State
  | 0 => asleep
  | 1 => (wokenOn .get).said .producer 0x0000#16
  | 2 => (mk 31 31 3#8 [(31, 0x41#8)]).said .consumer 0x0041#16
  | _ + 3 => mk 31 31 3#8 [(31, 0x41#8)]
def getMoves : Nat → Option Event
  | 0 => some (.rx 0x41#8)
  | 1 => some .recheck
  | _ + 2 => none

/-- C = 3 and ATOMIC_SLEEP = false: a WAIT from PRESLEEP, with a byte at every point but two. -/
def keenConfig : Config := config 3 1 false false
def keenStates : Nat → State
  | 0 => drowsy.on keenConfig
  | 1 => (blocking.waiting .sleep .wait).on keenConfig
  | 2 => (((mk 2 1 3#8 [(2, 0x41#8)]).waiting .woken .wait).on keenConfig).said .producer 0x0000#16
  | 3 => ((mk 2 1 3#8 [(2, 0x41#8)]).on keenConfig).said .consumer 0x0000#16
  | _ + 4 => ((mk 2 1 3#8 [(2, 0x41#8)]).on keenConfig).said .producer 0x2000#16
def keenMoves : Nat → Option Event
  | 0 => some .sleep
  | 1 => some (.rx 0x41#8)
  | 2 => some .recheck
  | _ + 3 => some (.rx 0x41#8)

/-- A run whose consumer ends in RUN owes no synchronizer step. -/
theorem weaklyFair_of_run {states : Nat → State} {moves : Nat → Option Event} (k : Nat)
    (h : ∀ n, k ≤ n → (states n).sync = .run) : WeaklyFair states moves := by
  rintro c (rfl | rfl) n hall
  all_goals
    have h1 := hall (n + k) (Nat.le_add_right ..)
    have h2 := h (n + k) (Nat.le_add_left ..)
    simp only [Event.Enabled, h2] at h1
    cases h1

theorem getRun : AgentRun getStates getMoves where
  enabled n e h := by
    match n with
    | 0 => cases h; trivial
    | 1 => cases h; rfl
    | _ + 2 => cases h
  follows n := by
    match n with
    | 0 => rfl
    | 1 => rfl
    | 2 => rfl
    | _ + 3 => rfl
theorem getFair : WeaklyFair getStates getMoves := weaklyFair_of_run 2 fun n h => by
  match n, h with
  | 2, _ => rfl
  | _ + 3, _ => rfl

theorem keenRun : AgentRun keenStates keenMoves where
  enabled n e h := by
    match n with
    | 0 => cases h; rfl
    | 1 => cases h; trivial
    | 2 => cases h; rfl
    | _ + 3 => cases h; trivial
  follows n := by
    match n with
    | 0 => rfl
    | 1 => rfl
    | 2 => rfl
    | 3 => rfl
    | k + 4 =>
      have h1 : keenStates (k + 4 + 1) = keenStates 4 := rfl
      have h2 : keenStates (k + 4) = keenStates 4 := rfl
      have h3 : keenMoves (k + 4) = keenMoves 4 := rfl
      rw [h1, h2, h3]; rfl
theorem keenFair : WeaklyFair keenStates keenMoves := weaklyFair_of_run 3 fun n h => by
  match n, h with
  | 3, _ => rfl
  | _ + 4, _ => rfl

/-- Both synchronizer steps. -/
theorem test_witness_AFairConsumerTakesItsOwnStep :
    AgentRun keenStates keenMoves ∧ WeaklyFair keenStates keenMoves ∧ (keenStates 0).sync = .presleep ∧
    (keenStates 2).sync = .woken := ⟨keenRun, keenFair, rfl, rfl⟩

/-- Check and sleep in one step and one byte; a byte already there; check and sleep in two steps and bytes that keep
coming. -/
theorem test_witness_AFairWaitEndsWhenBytesCome :
    (AgentRun getStates getMoves ∧ WeaklyFair getStates getMoves ∧ (getStates 0).Inv ∧ (getStates 0).sync ≠ .run ∧
      (getStates 0).rxEn = true ∧ (∀ m, 0 ≤ m → getMoves m ≠ some .reset) ∧ (getStates 0).cfg.atomicSleep = true ∧
      getMoves 0 = some (.rx 0x41#8) ∧ (getStates 1).Inv ∧ (getStates 1).sync ≠ .run ∧ (getStates 1).empty = false) ∧
    (AgentRun keenStates keenMoves ∧ WeaklyFair keenStates keenMoves ∧ (keenStates 0).Inv ∧
      (keenStates 0).sync ≠ .run ∧ (keenStates 0).rxEn = true ∧ (∀ m, 0 ≤ m → keenMoves m ≠ some .reset) ∧
      ∀ k, ∃ m e b, k ≤ m ∧ keenMoves m = some e ∧ e.pushed = some b) := by
  refine ⟨⟨getRun, getFair, asleep_inv, by decide, rfl, fun m _ => ?_, rfl, rfl, .of_check (by decide), by decide, rfl⟩,
    ⟨keenRun, keenFair, .of_check (by decide), by decide, rfl, fun m _ => ?_,
      fun k => ⟨k + 3, _, _, Nat.le_add_right .., rfl, rfl⟩⟩⟩
  · match m with
    | 0 => decide
    | 1 => decide
    | _ + 2 => simp [getMoves]
  · match m with
    | 0 => decide
    | 1 => decide
    | 2 => decide
    | _ + 3 => simp [keenMoves]

/-- On an empty buffer, and on data after a lost wakeup. -/
theorem test_witness_AFairRunMaySleepForEver : asleep.Ready ∧ asleep.sync = .sleep ∧ lost.Ready ∧ lost.sync = .sleep :=
  ⟨asleep_inv.toReady, rfl, lost_inv.toReady, rfl⟩

end Sys2Proof.Tests
end

section
/-! PROOFS. Which moves the block answers, that agreement at the ports is kept by each of them, and the statements of
`00_scope.md` that follow. -/

namespace Sys2Proof.Machine

/-! ## The parameters (rules R5 to R8) -/

/-- The legal configurations, assumption by assumption (rules R5, R8, R39, R47, R108, R121). -/
theorem Config.wellFormed_iff (c : Config) : c.WellFormed ↔
    3 ≤ c.capacity ∧ legalIndex c.capacity c.resetIndex ∧ c.producers = 1 ∧ c.consumers = 1 ∧
      c.atomicIndex = true ∧ c.inOrder = true := by
  simp only [Config.WellFormed, Config.problem, ite_eq_iff, reduceCtorEq, and_false, false_or, and_true, not_or,
    Nat.not_lt, Nat.not_le, not_ne_iff, Bool.not_eq_false, legalIndex, and_assoc]

/-- An index below C fits in IDX_W bits (rule R7). -/
theorem Config.lt_two_pow_idxW {c : Config} {i : Nat} (h : legalIndex c.capacity i) : i < 2 ^ c.idxW :=
  lt_of_le_of_lt (Nat.le_sub_one_of_lt h.2) Nat.lt_log2_self

/-- Settles O10: a register of IDX_W bits holds C-1, and one of IDX_W - 1 bits does not, by the bounds of `log2`. -/
theorem indicesFitTheirRegisters : Obligations.IndicesFitTheirRegisters := by
  refine ⟨fun s h => ⟨Config.lt_two_pow_idxW h.index.1, Config.lt_two_pow_idxW h.index.2, ?_⟩, rfl, by decide⟩
  have hc := h.three_le
  exact Nat.log2_self_le (by omega)

/-! ## Which moves the block answers -/

/-- The block has a step for the move: a word on a port that accepts it (rules R70, R76), the synchronizer step that
SYNC enables (rules R79, R82), or a move that may come at any time. Unlike `Event.Enabled` it admits ILLEGAL words. -/
def Event.Admitted (s : State) : Event → Prop
  | .word p _ => p = .consumer → s.sync = .run
  | .rx _ => True
  | .irqx => True
  | .reset => True
  | .sleep => s.sync = .presleep
  | .recheck => s.sync = .woken

/-- The reason by which a move that is not admitted is refused (notes/assumptions/8.md). -/
def Event.refusal : Event → Refusal
  | .word _ _ => .consumerHeld
  | _ => .stepNotEnabled

theorem Event.refusal_cases (e : Event) : e.refusal = .consumerHeld ∨ e.refusal = .stepNotEnabled := by
  cases e with
  | word => exact .inl rfl
  | _ => exact .inr rfl

/-- The move of an agent is admitted (rule R113). -/
theorem Event.Enabled.admitted {s : State} {e : Event} (h : e.Enabled s) : e.Admitted s := by
  cases e with
  | word p w =>
    cases p with
    | producer => exact fun hp => nomatch hp
    | consumer => exact fun _ => h.1
  | _ => exact h

/-- A move that is admitted though no agent has it is an ILLEGAL word (notes/assumptions/20.md). -/
theorem Event.Admitted.illegal_of_not_enabled {s : State} {e : Event} (ha : e.Admitted s) (he : ¬e.Enabled s) :
    ∃ p w why, e = .word p w ∧ decode p w = .illegal why ∧ (p = .consumer → s.sync = .run) := by
  cases e with
  | word p w =>
    cases hd : decode p w with
    | illegal why => exact ⟨p, w, why, rfl, hd, ha⟩
    | instr i =>
      refine absurd ?_ he
      cases p with
      | consumer => exact ⟨ha rfl, i, hd⟩
      | producer =>
        have hi : i.port = .producer := decode_port hd
        cases i with
        | push b => exact ⟨b, hd⟩
        | _ => cases hi
  | _ => exact absurd ha he

/-- A port that accepts a word lets it through. -/
theorem accepted_of_open {p : Port} {s : State} (h : s.Ready) (hp : p = .consumer → s.sync = .run)
    (k : State → Host.Outcome State Fault Refusal) : accepted p s k = k s := by
  cases p with
  | producer => exact accepted_producer h k
  | consumer => exact accepted_consumer ⟨h, hp rfl⟩ k

/-- A consumer port that is held refuses every word (rule R76). -/
theorem accepted_held {s : State} (h : s.Ready) (hs : s.sync ≠ .run) (k : State → Host.Outcome State Fault Refusal) :
    accepted .consumer s k = .refused .consumerHeld := by
  rw [accepted, guarded_of_ready h, if_pos ⟨rfl, hs⟩]

/-- A word that decodes to no operation, on a port that accepts it, is answered ILLEGAL and changes nothing else
(rule R61). -/
theorem deliver_illegal_open {p : Port} {w : Word} {why : IllegalWord} {s : State} (h : s.Ready)
    (hd : decode p w = .illegal why) (hp : p = .consumer → s.sync = .run) :
    deliver (.word p w) s = .next (s.respond p .illegal 0x00#8) := by
  rw [deliver_illegal hd, accepted_of_open h hp]

/-- A move that is not admitted is refused, by its own reason. -/
theorem deliver_of_not_admitted {s : State} (h : s.Ready) {e : Event} (he : ¬e.Admitted s) :
    deliver e s = .refused e.refusal := by
  cases e with
  | word p w =>
    obtain ⟨rfl, hs⟩ : p = .consumer ∧ s.sync ≠ .run := Classical.not_imp.1 he
    cases hd : decode .consumer w with
    | illegal why => rw [deliver_illegal hd]; exact accepted_held h hs _
    | instr i => rw [deliver_instr hd]; exact exec_held h (decode_port hd) hs
  | sleep => exact (deliver_sleep h).trans (if_neg he)
  | recheck => exact (deliver_recheck h).trans (if_neg he)
  | _ => exact absurd trivial he

/-! ## Only the guard and the ports refuse -/

theorem takeByte_ne_refused {s : State} {r : Refusal} {k : Byte → State → Host.Outcome State Fault Refusal}
    (hk : ∀ b u, k b u ≠ .refused r) : takeByte s k ≠ .refused r := by
  unfold takeByte
  split
  · exact hk _ _
  · nofun

theorem complete_ne_refused (op : Pend) (s : State) (r : Refusal) : complete op s ≠ .refused r := by
  cases op with
  | none => nofun
  | wait => nofun
  | get =>
    unfold complete
    exact takeByte_ne_refused fun _ _ => nofun

theorem check_ne_refused (op : Pend) (s : State) (r : Refusal) : check op s ≠ .refused r := by
  unfold check
  split
  · exact complete_ne_refused op s r
  · split <;> nofun

/-- Past the guard, on a port that accepts its word, no operation is refused. -/
theorem exec_ne_refused {s : State} (h : s.Ready) {i : Instr} (hp : i.port = .consumer → s.sync = .run) (r : Refusal) :
    exec i s ≠ .refused r := by
  cases i with
  | push b =>
    rw [exec_push h]
    split
    · nofun
    · split <;> nofun
  | pop =>
    rw [exec_pop ⟨h, hp rfl⟩]
    split
    · nofun
    · exact takeByte_ne_refused fun _ _ => nofun
  | isempty => rw [exec_isempty ⟨h, hp rfl⟩]; nofun
  | wait => rw [exec_wait ⟨h, hp rfl⟩]; exact check_ne_refused _ _ _
  | get => rw [exec_get ⟨h, hp rfl⟩]; exact check_ne_refused _ _ _
  | init blk =>
    cases blk with
    | both => rw [exec_init_both ⟨h, hp rfl⟩]; nofun
    | _ => rw [exec_init ⟨h, hp rfl⟩ rfl]; nofun
  | ctrl blk =>
    cases blk with
    | both => rw [exec_ctrl_both ⟨h, hp rfl⟩]; nofun
    | _ => rw [exec_ctrl ⟨h, hp rfl⟩ rfl]; nofun
  | close => rw [exec_close ⟨h, hp rfl⟩]; nofun
  | status => rw [exec_status ⟨h, hp rfl⟩]; nofun

/-- An admitted move is never refused in a ready state. -/
theorem deliver_ne_refused {s : State} (h : s.Ready) {e : Event} (he : e.Admitted s) (r : Refusal) :
    deliver e s ≠ .refused r := by
  cases e with
  | word p w =>
    cases hd : decode p w with
    | illegal why => rw [deliver_illegal_open h hd he]; nofun
    | instr i => rw [deliver_instr hd]; exact exec_ne_refused h (fun hi => he (decode_port hd ▸ hi)) r
  | rx b => rw [deliver_rx]; exact exec_ne_refused (i := .push b) h nofun r
  | irqx => rw [deliver_irqx h]; nofun
  | reset => rw [deliver_reset h]; nofun
  | sleep => rw [deliver_sleep h, if_pos (show s.sync = .presleep from he)]; nofun
  | recheck =>
    rw [deliver_recheck h, if_pos (show s.sync = .woken from he)]
    split
    · exact complete_ne_refused _ _ _
    · nofun

/-- What the guard answers in place of every transition, each step answers. -/
theorem step_of_guard {s : State} {o : Host.Outcome State Fault Refusal} (h : ∀ k, guarded s k = o) : step s = o := by
  unfold step
  split
  · exact h _
  · rename_i e rest _
    exact deliver_of_guard (s := s.setInputs rest) (fun k => h fun u => k (u.setInputs rest)) e

/-- A ready state's step does not refuse the configuration. -/
theorem State.Ready.step_ne_configuration {s : State} (h : s.Ready) (why : ConfigProblem) :
    step s ≠ .refused (.configuration why) := by
  unfold step
  split
  · rw [idleStep_ready h]; nofun
  · rename_i e rest _
    by_cases he : e.Admitted (s.setInputs rest)
    · exact deliver_ne_refused (h.setInputs rest) he _
    · rw [deliver_of_not_admitted (h.setInputs rest) he]
      rcases e.refusal_cases with hr | hr <;> rw [hr] <;> nofun

/-- A step refuses the configuration exactly when it is not one the spec covers. -/
theorem step_refuses_configuration_iff (s : State) :
    (∃ why, step s = .refused (.configuration why)) ↔ ¬s.cfg.WellFormed := by
  constructor
  · rintro ⟨why, hw⟩ hc
    by_cases hi : s.indexOk
    · exact State.Ready.step_ne_configuration ⟨hc, hi⟩ why hw
    · rw [step_of_guard (o := .fault .indexRange) fun k => by simp only [guarded, hc, if_neg hi]] at hw
      cases hw
  · intro hc
    obtain ⟨why, hw⟩ := Option.ne_none_iff_exists'.1 hc
    exact ⟨why, step_of_guard fun k => by simp only [guarded, hw]⟩

/-- Settles O17: the refusals of the configuration are those of the guard, and the guard refuses exactly the
configurations that are not well formed. -/
theorem badConfigurationsAreRefused : Obligations.BadConfigurationsAreRefused := by
  intro s
  rw [step_refuses_configuration_iff, Config.wellFormed_iff]
  simp only [legalIndex, not_and_or, Nat.not_le, Nat.not_lt, Bool.not_eq_true, or_assoc, ne_eq]

/-! ## Agreement at the ports (rules R8, R29) -/

theorem PortEqual.refl (s : State) : PortEqual s s := ⟨rfl, rfl, rfl, rfl, rfl, rfl, rfl, rfl, rfl⟩

section Agreement
variable {s t : State}

theorem PortEqual.setResp (h : PortEqual s t) (r : Option Response) : PortEqual (s.setResp r) (t.setResp r) :=
  { h with resp := rfl }

theorem PortEqual.setSync (h : PortEqual s t) (y : Sync) : PortEqual (s.setSync y) (t.setSync y) :=
  { h with sync := rfl }

theorem PortEqual.setPend (h : PortEqual s t) (p : Pend) : PortEqual (s.setPend p) (t.setPend p) :=
  { h with pend := rfl }

theorem PortEqual.setCtrl (h : PortEqual s t) (v : BitVec 8) : PortEqual (s.setCtrl v) (t.setCtrl v) :=
  { h with ctrl := rfl }

theorem PortEqual.setInputs (h : PortEqual s t) (es : List Event) : PortEqual (s.setInputs es) (t.setInputs es) :=
  { h with inputs := rfl }

theorem PortEqual.respond (h : PortEqual s t) (p : Port) (rc : Rc) (d : Byte) :
    PortEqual (s.respond p rc d) (t.respond p rc d) := h.setResp _

theorem PortEqual.silent (h : PortEqual s t) : PortEqual s.silent t.silent := h.setResp none

theorem PortEqual.endWait (h : PortEqual s t) : PortEqual s.endWait t.endWait := (h.setSync .run).setPend .none

theorem PortEqual.wake (h : PortEqual s t) : PortEqual s.wake t.wake := by
  have := h.setSync s.sync.wake
  rwa [State.wake, State.wake, h.sync]

theorem PortEqual.rxEn (h : PortEqual s t) : t.rxEn = s.rxEn := by rw [State.rxEn, State.rxEn, h.ctrl]

theorem PortEqual.block (h : PortEqual s t) : t.block = s.block := by rw [State.block, State.block, h.ctrl]

theorem PortEqual.sleepState (h : PortEqual s t) : sleepState t.cfg = sleepState s.cfg := by
  rw [Machine.sleepState, Machine.sleepState, h.atomicSleep]

theorem PortEqual.initBlock (h : PortEqual s t) (blk : Blk) : initBlock t.cfg blk = initBlock s.cfg blk := by
  cases blk with
  | neither => exact congrArg some h.blockDefault
  | _ => rfl

/-- COUNT is the number of unread bytes. -/
theorem PortEqual.count (h : PortEqual s t) : t.count = s.count := by
  rw [← State.contents_length, h.contents, State.contents_length]

theorem PortEqual.empty (h : PortEqual s t) (hs : s.Ready) (ht : t.Ready) : t.empty = s.empty := by
  rw [Bool.eq_iff_iff, empty_iff_count ht, empty_iff_count hs, h.count]

theorem PortEqual.full (h : PortEqual s t) (hs : s.Ready) (ht : t.Ready) : t.full = s.full := by
  rw [Bool.eq_iff_iff, full_iff_count ht, full_iff_count hs, h.count, h.capacity]

theorem PortEqual.emptyByte (h : PortEqual s t) (hs : s.Ready) (ht : t.Ready) : t.emptyByte = s.emptyByte := by
  rw [State.emptyByte, State.emptyByte, h.empty hs ht]

theorem PortEqual.statusByte (h : PortEqual s t) (hs : s.Ready) (ht : t.Ready) : t.statusByte = s.statusByte := by
  rw [State.statusByte, State.statusByte, h.block, h.rxEn, h.full hs ht, h.empty hs ht]

/-- With HEAD and TAIL equal there are no unread bytes, wherever the two stand. -/
theorem contents_of_head_eq_tail (h : s.head = s.tail) : s.contents = [] := by
  simp [State.contents, State.count, indexDistance, h, slotsAfter]

/-- Both buffers emptied, each at an index of its own (rules R8, R90). -/
theorem PortEqual.emptied (h : PortEqual s t) (i j : Nat) :
    PortEqual ((s.setHead i).setTail i) ((t.setHead j).setTail j) :=
  { h with contents := by rw [contents_of_head_eq_tail (s := (s.setHead i).setTail i) rfl,
      contents_of_head_eq_tail (s := (t.setHead j).setTail j) rfl] }

/-- Both blocks reset (rule R115). -/
theorem PortEqual.reset (h : PortEqual s t) :
    PortEqual ((State.powerOn s.cfg).setInputs s.inputs) ((State.powerOn t.cfg).setInputs t.inputs) :=
  ⟨h.capacity, h.blockDefault, h.atomicSleep, by
    rw [contents_of_head_eq_tail (s := (State.powerOn t.cfg).setInputs t.inputs) rfl,
      contents_of_head_eq_tail (s := (State.powerOn s.cfg).setInputs s.inputs) rfl], rfl, rfl, rfl, h.inputs, rfl⟩

/-- The state with `b` stored in the slot after HEAD, and HEAD moved there (rule R66). -/
def State.stored (s : State) (b : Byte) : State :=
  (s.setData (Memory.write s.data (nextIndex s.cfg.capacity s.head) b)).setHead (nextIndex s.cfg.capacity s.head)

/-- The state with TAIL moved on to the slot after it (rule R72). -/
def State.advanced (s : State) : State := s.setTail (nextIndex s.cfg.capacity s.tail)

/-- Both buffers have taken the same byte. -/
theorem PortEqual.stored (h : PortEqual s t) (hs : s.Ready) (ht : t.Ready) (hf : s.full = false) (b : Byte) :
    PortEqual (s.stored b) (t.stored b) := by
  obtain ⟨-, -, hcs, -⟩ := push_contents (t := s.stored b) hs hf b rfl rfl rfl rfl
  obtain ⟨-, -, hct, -⟩ := push_contents (t := t.stored b) ht ((h.full hs ht).trans hf) b rfl rfl rfl rfl
  exact { h with contents := by rw [hcs, hct, h.contents] }

/-- Both buffers give up their oldest byte, which is the same byte. -/
theorem PortEqual.oldest (h : PortEqual s t) (hs : s.Inv) (ht : t.Ready) (he : s.empty = false) :
    ∃ b, Memory.read s.data (nextIndex s.cfg.capacity s.tail) = some b ∧
      Memory.read t.data (nextIndex t.cfg.capacity t.tail) = some b ∧ PortEqual s.advanced t.advanced := by
  obtain ⟨b, hb⟩ := hs.written _ (unread_next_tail hs.toReady he)
  obtain ⟨-, -, hcs⟩ := pop_contents (t := s.advanced) hs.toReady he rfl rfl rfl rfl
  obtain ⟨-, -, hct⟩ := pop_contents (t := t.advanced) ht ((h.empty hs.toReady ht).trans he) rfl rfl rfl rfl
  obtain ⟨hread, hrest⟩ := List.cons.inj (hct.symm.trans (h.contents.trans hcs))
  exact ⟨b, hb, hread.trans hb, { h with contents := hrest }⟩

/-! ## Each move keeps the agreement -/

/-- INIT is INVALID for the conflicting pair alone (rule R95). -/
theorem initBlock_eq_none {c : Config} {blk : Blk} (h : initBlock c blk = none) : blk = .both := by
  cases blk with
  | both => rfl
  | _ => cases h

/-- CTRL is INVALID for the conflicting pair alone (rule R95). -/
theorem ctrlBlock_eq_none {now : Bool} {blk : Blk} (h : ctrlBlock now blk = none) : blk = .both := by
  cases blk with
  | both => rfl
  | _ => cases h

/-- Both transitions answer a next state, and the two agree at the ports. -/
def BothNext (o o' : Host.Outcome State Fault Refusal) : Prop :=
  ∃ s' t', o = .next s' ∧ o' = .next t' ∧ PortEqual s' t'

theorem PortEqual.bothNext (h : PortEqual s t) : BothNext (.next s) (.next t) := ⟨s, t, rfl, rfl, h⟩

theorem takeByte_bothNext (hs : s.Inv) (ht : t.Inv) (h : PortEqual s t) (he : s.empty = false)
    {k : Byte → State → Host.Outcome State Fault Refusal}
    (hk : ∀ b {u v : State}, PortEqual u v → BothNext (k b u) (k b v)) : BothNext (takeByte s k) (takeByte t k) := by
  obtain ⟨b, hbs, hbt, h'⟩ := h.oldest hs ht.toReady he
  rw [takeByte_some hs.toReady he hbs, takeByte_some ht.toReady ((h.empty hs.toReady ht.toReady).trans he) hbt]
  exact hk b h'

theorem complete_bothNext (hs : s.Inv) (ht : t.Inv) (h : PortEqual s t) (he : s.empty = false) {op : Pend}
    (hop : op ≠ .none) : BothNext (complete op s) (complete op t) := by
  cases op with
  | none => exact absurd rfl hop
  | wait => exact (h.endWait.respond ..).bothNext
  | get =>
    unfold complete
    exact takeByte_bothNext hs ht h he fun b _ _ hu => (hu.endWait.respond ..).bothNext

theorem check_bothNext (hs : s.Inv) (ht : t.Inv) (h : PortEqual s t) {op : Pend} (hop : op ≠ .none) :
    BothNext (check op s) (check op t) := by
  rw [check, check, h.empty hs.toReady ht.toReady, h.block, h.sleepState]
  split
  · exact complete_bothNext hs ht h ‹_› hop
  · split
    · exact (h.respond ..).bothNext
    · exact ((h.setPend op).setSync _).silent.bothNext

theorem execPush_bothNext (hs : s.Ready) (ht : t.Ready) (h : PortEqual s t) (b : Byte) :
    BothNext (exec (.push b) s) (exec (.push b) t) := by
  rw [exec_push hs, exec_push ht, h.rxEn, h.full hs ht]
  split
  · exact (h.respond ..).bothNext
  · split
    · exact (h.respond ..).wake.bothNext
    · exact ((h.stored hs ht (by simp_all) b).respond ..).wake.bothNext

theorem execPop_bothNext (hs : s.Inv) (ht : t.Inv) (h : PortEqual s t) (hr : s.sync = .run) :
    BothNext (exec .pop s) (exec .pop t) := by
  rw [exec_pop ⟨hs.toReady, hr⟩, exec_pop ⟨ht.toReady, h.sync.trans hr⟩, h.empty hs.toReady ht.toReady]
  split
  · exact (h.respond ..).bothNext
  · exact takeByte_bothNext hs ht h (by simp_all) fun b _ _ hu => (hu.respond ..).bothNext

/-- The block agrees on the BLK operand of INIT because BLOCK_DEFAULT agrees; RESET_INDEX need not (rule R8). -/
theorem execInit_bothNext (hs : s.Quiescent) (ht : t.Quiescent) (h : PortEqual s t) (blk : Blk) :
    BothNext (exec (.init blk) s) (exec (.init blk) t) := by
  cases hb : initBlock s.cfg blk with
  | some b =>
    rw [exec_init hs hb, exec_init ht ((h.initBlock blk).trans hb), h.ctrl]
    exact (((h.emptied _ _).setCtrl _).respond ..).bothNext
  | none =>
    obtain rfl := initBlock_eq_none hb
    rw [exec_init_both hs, exec_init_both ht]
    exact (h.respond ..).bothNext

theorem execCtrl_bothNext (hs : s.Quiescent) (ht : t.Quiescent) (h : PortEqual s t) (blk : Blk) :
    BothNext (exec (.ctrl blk) s) (exec (.ctrl blk) t) := by
  cases hb : ctrlBlock s.block blk with
  | some b =>
    rw [exec_ctrl hs hb, exec_ctrl ht (h.block ▸ hb), h.ctrl]
    exact ((h.setCtrl _).respond ..).bothNext
  | none =>
    obtain rfl := ctrlBlock_eq_none hb
    rw [exec_ctrl_both hs, exec_ctrl_both ht]
    exact (h.respond ..).bothNext

/-- An operation on a port that accepts its word. -/
theorem exec_bothNext (hs : s.Inv) (ht : t.Inv) (h : PortEqual s t) {i : Instr}
    (hp : i.port = .consumer → s.sync = .run) : BothNext (exec i s) (exec i t) := by
  have hqs (hi : i.port = .consumer) : s.Quiescent := ⟨hs.toReady, hp hi⟩
  have hqt (hi : i.port = .consumer) : t.Quiescent := ⟨ht.toReady, h.sync.trans (hp hi)⟩
  cases i with
  | push b => exact execPush_bothNext hs.toReady ht.toReady h b
  | pop => exact execPop_bothNext hs ht h (hp rfl)
  | isempty =>
    rw [exec_isempty (hqs rfl), exec_isempty (hqt rfl), h.emptyByte hs.toReady ht.toReady]
    exact (h.respond ..).bothNext
  | wait => rw [exec_wait (hqs rfl), exec_wait (hqt rfl)]; exact check_bothNext hs ht h nofun
  | get => rw [exec_get (hqs rfl), exec_get (hqt rfl)]; exact check_bothNext hs ht h nofun
  | init blk => exact execInit_bothNext (hqs rfl) (hqt rfl) h blk
  | ctrl blk => exact execCtrl_bothNext (hqs rfl) (hqt rfl) h blk
  | close => rw [exec_close (hqs rfl), exec_close (hqt rfl)]; exact (h.respond ..).bothNext
  | status =>
    rw [exec_status (hqs rfl), exec_status (hqt rfl), h.statusByte hs.toReady ht.toReady]
    exact (h.respond ..).bothNext

/-- The re-check in WOKEN, where PEND names an operation (rule R27). -/
theorem recheck_bothNext (hs : s.Inv) (ht : t.Inv) (h : PortEqual s t) (hw : s.sync = .woken) :
    BothNext (deliver .recheck s) (deliver .recheck t) := by
  have hp : s.pend ≠ .none := fun e => by simpa [hw] using hs.pending.1 e
  rw [deliver_recheck hs.toReady, deliver_recheck ht.toReady, if_pos hw, if_pos (h.sync.trans hw),
    h.empty hs.toReady ht.toReady, h.pend, h.sleepState]
  split
  · exact complete_bothNext hs ht h ‹_› hp
  · exact (h.setSync _).silent.bothNext

/-- An admitted move answers a next state, and states that agree at the ports go on to states that agree. -/
theorem deliver_bothNext (hs : s.Inv) (ht : t.Inv) (h : PortEqual s t) {e : Event} (he : e.Admitted s) :
    BothNext (deliver e s) (deliver e t) := by
  cases e with
  | word p w =>
    cases hd : decode p w with
    | illegal why =>
      rw [deliver_illegal_open hs.toReady hd he, deliver_illegal_open ht.toReady hd fun hp => h.sync.trans (he hp)]
      exact (h.respond ..).bothNext
    | instr i =>
      rw [deliver_instr hd, deliver_instr hd]
      exact exec_bothNext hs ht h fun hi => he (decode_port hd ▸ hi)
  | rx b => rw [deliver_rx, deliver_rx]; exact execPush_bothNext hs.toReady ht.toReady h b
  | irqx => rw [deliver_irqx hs.toReady, deliver_irqx ht.toReady]; exact h.silent.wake.bothNext
  | reset => rw [deliver_reset hs.toReady, deliver_reset ht.toReady]; exact h.reset.bothNext
  | sleep =>
    have hp : s.sync = .presleep := he
    rw [deliver_sleep hs.toReady, deliver_sleep ht.toReady, if_pos hp, if_pos (h.sync.trans hp)]
    exact (h.setSync .sleep).silent.bothNext
  | recheck => exact recheck_bothNext hs ht h he

/-- Which moves are admitted is seen at SYNC alone. -/
theorem PortEqual.admitted (h : PortEqual s t) (e : Event) : e.Admitted t ↔ e.Admitted s := by
  cases e with
  | word p w => simp only [Event.Admitted, h.sync]
  | sleep => simp only [Event.Admitted, h.sync]
  | recheck => simp only [Event.Admitted, h.sync]
  | _ => rfl

/-- Two states that agree at the ports both go on to states that agree, or refuse their next move alike. -/
theorem step_portEqual (hs : s.Inv) (ht : t.Inv) (h : PortEqual s t) :
    BothNext (step s) (step t) ∨ ∃ r, step s = .refused r ∧ step t = .refused r := by
  unfold step
  rw [h.inputs]
  cases s.inputs with
  | nil =>
    dsimp only
    rw [idleStep_ready hs.toReady, idleStep_ready ht.toReady]
    exact .inl h.silent.bothNext
  | cons e rest =>
    have hs := hs.setInputs rest
    have ht := ht.setInputs rest
    have h := h.setInputs rest
    by_cases he : e.Admitted (s.setInputs rest)
    · exact .inl (deliver_bothNext hs ht h he)
    · exact .inr ⟨e.refusal, deliver_of_not_admitted hs.toReady he,
        deliver_of_not_admitted ht.toReady fun ha => he ((h.admitted e).1 ha)⟩

end Agreement

/-- Settles O52: every admitted move keeps the agreement at the ports, and which moves are admitted, with the reason for
refusing the others, is seen at SYNC alone. -/
theorem portsCannotTellWhereBytesStand : Obligations.PortsCannotTellWhereBytesStand := by
  intro s t hs ht h
  rcases step_portEqual hs ht h with ⟨s', t', hs', ht', h'⟩ | ⟨r, hr, hr'⟩
  · rw [hs', ht']; exact h'
  · rw [hr, hr']

/-! ## The moves of the agents (rule R113) -/

/-- No transition changes the parameters or the schedule. -/
theorem Taken.sameSurroundings {s t : State} {e : Event} (h : Taken s e t) : SameSurroundings s t := by
  cases h <;> exact ⟨rfl, rfl⟩

/-- An admitted move answers a next state: the agreement of a state with itself. -/
theorem deliver_of_admitted {s : State} (h : s.Inv) {e : Event} (he : e.Admitted s) : ∃ t, deliver e s = .next t := by
  obtain ⟨t, -, ht, -⟩ := deliver_bothNext h h (PortEqual.refl s) he
  exact ⟨t, ht⟩

/-- Settles O16: an agent's move is admitted, and what is admitted beside the agents' moves are the ILLEGAL words;
everything else is refused. -/
theorem exactlyTheEnabledMovesAreTaken : Obligations.ExactlyTheEnabledMovesAreTaken := by
  intro s e rest h
  have hi := h.setInputs rest
  have hen : e.Enabled (s.setInputs rest) ↔ e.Enabled s := Event.enabled_setInputs s rest e
  constructor
  · intro he
    obtain ⟨t, ht⟩ := deliver_of_admitted hi (hen.2 he).admitted
    obtain ⟨hcfg, hin⟩ := (deliver_next ht).2.sameSurroundings
    exact ⟨t, ht, hin, hcfg⟩
  · intro he
    by_cases ha : e.Admitted (s.setInputs rest)
    · obtain ⟨p, w, why, rfl, hd, hp⟩ := ha.illegal_of_not_enabled (mt hen.1 he)
      exact .inl ⟨p, w, why, rfl, hd, hp, deliver_illegal_open hi.toReady hd hp⟩
    · exact .inr ⟨e.refusal, deliver_of_not_admitted hi.toReady ha, e.refusal_cases⟩

end Sys2Proof.Machine
end

section
/-! PROOFS. The invariant is kept by each change a transition makes of the state, which registers each transition
writes, and the statements of `10_state.md` that follow. -/

namespace Sys2Proof.Machine

/-! ## The invariant after reset (rules R33, R117) -/

/-- With HEAD and TAIL equal no slot is unread, so none lacks a value (rule R28). -/
theorem unreadWritten_of_head_eq_tail {s : State} (h : s.Ready) (he : s.head = s.tail) : s.UnreadWritten := by
  rw [unreadWritten_iff h, contents_of_head_eq_tail he]
  nofun

theorem State.Ready.powerOn {c : Config} (h : c.WellFormed) : (State.powerOn c).Ready :=
  have hr := (Config.wf_bounds h).2
  ⟨h, hr, hr⟩

theorem State.powerOn_rxEn (c : Config) : (State.powerOn c).rxEn = false := BitVec.getLsbD_zero

theorem State.powerOn_block (c : Config) : (State.powerOn c).block = false := BitVec.getLsbD_zero

theorem State.powerOn_reserved (c : Config) : (State.powerOn c).ctrl &&& 0xFC#8 = 0#8 := BitVec.zero_and

theorem State.powerOn_empty (c : Config) : (State.powerOn c).empty = true := beq_self_eq_true c.resetIndex

theorem State.Inv.powerOn {c : Config} (h : c.WellFormed) : (State.powerOn c).Inv where
  toReady := .powerOn h
  canonical := rfl
  slots := nofun
  written := unreadWritten_of_head_eq_tail (.powerOn h) rfl
  reserved := State.powerOn_reserved c
  pending := iff_of_true rfl rfl
  twoSteps := nofun
  blocking := absurd rfl
  asleep := nofun
  beforeInit := fun _ => ⟨rfl, rfl, rfl⟩

/-- Settles O13: nothing is unread after reset, and the rest of the invariant speaks of values that rule R33 fixes. -/
theorem resetMeetsTheInvariant : Obligations.ResetMeetsTheInvariant :=
  ⟨fun _ es hc => (State.Inv.powerOn hc).setInputs es, .powerOn (by decide)⟩

/-! ## The invariant under each change a transition makes -/

section Invariant
variable {s t : State}

theorem State.Inv.setResp (h : s.Inv) (r : Option Response) : (s.setResp r).Inv := { h with }

theorem State.Inv.respond (h : s.Inv) (p : Port) (rc : Rc) (d : Byte) : (s.respond p rc d).Inv := h.setResp _

theorem State.Inv.silent (h : s.Inv) : s.silent.Inv := h.setResp none

/-- SYNC and PEND may change together as long as the clauses that speak of them still hold (rules R26, R27, R78, R83). -/
theorem State.Inv.setWait (h : s.Inv) {y : Sync} {p : Pend} (hp : p = .none ↔ y = .run)
    (h2 : y = .presleep → s.cfg.atomicSleep = false) (hb : y ≠ .run → s.block = true)
    (ha : s.cfg.atomicSleep = true → y = .sleep → s.empty = true) : ((s.setPend p).setSync y).Inv :=
  { h with pending := hp, twoSteps := h2, blocking := hb, asleep := ha }

/-- A wait may end in any state (rules R84, R86). -/
theorem State.Inv.endWait (h : s.Inv) : s.endWait.Inv :=
  h.setWait (y := .run) (p := .none) (iff_of_true rfl rfl) nofun (absurd rfl) nofun

@[simp] theorem Sync.wake_eq_run (y : Sync) : y.wake = .run ↔ y = .run := by cases y <;> decide
@[simp] theorem Sync.wake_eq_presleep (y : Sync) : y.wake = .presleep ↔ y = .presleep := by cases y <;> decide

/-- No wake event leaves the consumer asleep (rule R81). -/
theorem Sync.wake_ne_sleep (y : Sync) : y.wake ≠ .sleep := by cases y <;> decide

theorem State.Inv.wake (h : s.Inv) : s.wake.Inv :=
  h.setWait (h.pending.trans s.sync.wake_eq_run.symm) (fun hy => h.twoSteps (s.sync.wake_eq_presleep.1 hy))
    (fun hy => h.blocking (mt s.sync.wake_eq_run.2 hy)) (fun _ hy => absurd hy s.sync.wake_ne_sleep)

theorem sleepState_ne_run (c : Config) : sleepState c ≠ .run := by
  unfold sleepState; split <;> nofun

/-- A wait passes through PRESLEEP only where check and sleep are two steps (rule R79). -/
theorem atomicSleep_of_sleepState {c : Config} (h : sleepState c = .presleep) : c.atomicSleep = false := by
  unfold sleepState at h
  split at h
  · cases h
  · exact eq_false_of_ne_true ‹_›

/-- A wait that starts or goes on because the buffer is empty (rules R78, R79, R83). -/
theorem State.Inv.sleepOnEmpty (h : s.Inv) {p : Pend} (hp : p ≠ .none) (he : s.empty = true) (hb : s.block = true) :
    ((s.setPend p).setSync (sleepState s.cfg)).Inv :=
  h.setWait (iff_of_false hp (sleepState_ne_run _)) atomicSleep_of_sleepState (fun _ => hb) (fun _ _ => he)

/-- The sleep entry without a check, which only PRESLEEP takes, so only where ATOMIC_SLEEP = false (rule R79). -/
theorem State.Inv.enterSleep (h : s.Inv) (hs : s.sync = .presleep) : (s.setSync .sleep).Inv := by
  have hrun : s.sync ≠ .run := by rw [hs]; nofun
  have hsplit := h.twoSteps hs
  exact h.setWait (iff_of_false (mt h.pending.1 hrun) nofun) nofun (fun _ => h.blocking hrun) (by simp [hsplit])

/-- A byte stored by a PUSH; the consumer must not be asleep on it, which is why the PUSH wakes it (rules R66, R68). -/
theorem State.Inv.stored (h : s.Inv) (hx : s.rxEn = true) (hf : s.full = false) (hs : s.sync ≠ .sleep) (b : Byte) :
    (s.stored b).Inv := by
  obtain ⟨hr, -, hcontents, -⟩ := push_contents (t := s.stored b) h.toReady hf b rfl rfl rfl rfl
  refine { h with
    toReady := hr
    canonical := Memory.write_wf _ _ h.canonical
    slots := fun a v hv => ?_
    written := ?_
    asleep := fun _ hy => absurd hy hs
    beforeInit := fun hoff => absurd (hx.symm.trans hoff) nofun }
  · by_cases ha : a = nextIndex s.cfg.capacity s.head
    · exact ha ▸ nextIndex_legal h.three_le h.index.1
    · exact h.slots a v ((Memory.read_write_other s.data b ha).symm.trans hv)
  · rw [unreadWritten_iff hr, hcontents]
    have hold := (unreadWritten_iff h.toReady).1 h.written
    exact List.forall_mem_append.2 ⟨hold, List.forall_mem_singleton.2 ⟨b, rfl⟩⟩

/-- The oldest byte popped: the buffer held data, so INIT had come and no consumer slept on it (rules R72, R86). -/
theorem State.Inv.advanced (h : s.Inv) (he : s.empty = false) : s.advanced.Inv := by
  obtain ⟨hr, -, hcontents⟩ := pop_contents (t := s.advanced) h.toReady he rfl rfl rfl rfl
  refine { h with
    toReady := hr
    written := (unreadWritten_iff hr).2 ?_
    asleep := fun hat hy => absurd ((h.asleep hat hy).symm.trans he) nofun
    beforeInit := fun hoff => ?_ }
  · have hold := (unreadWritten_iff h.toReady).1 h.written
    rw [hcontents] at hold
    exact (List.forall_mem_cons.1 hold).2
  · obtain ⟨hhead, htail, -⟩ := h.beforeInit hoff
    simp [State.empty, hhead, htail] at he

/-- INIT empties the buffer and enables receive, so nothing is unread and the untouched buffer is no longer asked for
(rule R90). -/
theorem State.Inv.emptiedByInit (h : s.Inv) (hs : s.sync = .run) (b : Bool) :
    (((s.setHead s.cfg.resetIndex).setTail s.cfg.resetIndex).setCtrl (ctrlEnableRx (ctrlSetBlock s.ctrl b))).Inv := by
  have hi := (Config.wf_bounds h.config).2
  have hr : (((s.setHead s.cfg.resetIndex).setTail s.cfg.resetIndex).setCtrl
      (ctrlEnableRx (ctrlSetBlock s.ctrl b))).Ready := ⟨h.config, hi, hi⟩
  exact { h with
    toReady := hr
    written := unreadWritten_of_head_eq_tail hr rfl
    reserved := by simp [ctrlEnableRx_reserved, ctrlSetBlock_reserved, h.reserved]
    blocking := absurd hs
    asleep := fun _ _ => beq_self_eq_true s.cfg.resetIndex
    beforeInit := fun hoff => absurd ((ctrlEnableRx_rxEn _).symm.trans hoff) nofun }

/-- CTRL writes BLOCK outside a wait (rule R92). -/
theorem State.Inv.setBlock (h : s.Inv) (hs : s.sync = .run) (b : Bool) :
    (s.setCtrl (ctrlSetBlock s.ctrl b)).Inv :=
  { h with
    reserved := (ctrlSetBlock_reserved _ _).trans h.reserved
    blocking := absurd hs
    beforeInit := fun hoff => h.beforeInit ((ctrlSetBlock_rxEn _ _).symm.trans hoff) }

/-- Every transition keeps the invariant. -/
theorem Taken.inv {e : Event} (tk : Taken s e t) (h : s.Inv) : t.Inv := by
  cases tk with
  | illegal | rxOff | popEmpty | isempty | status | wouldBlock | invalid | close => exact h.respond ..
  | dropped | irqx => exact (h.setResp _).wake
  | stored _ b _ hx hf => exact (h.wake.stored hx hf s.sync.wake_ne_sleep b).respond ..
  | popByte _ _ _ he => exact (h.advanced he).respond ..
  | getByte _ _ _ he | recheckGet _ he => exact (h.advanced he).endWait.respond ..
  | waitOk | recheckWait => exact h.endWait.respond ..
  | fallAsleep _ _ op hi _ _ he hk =>
    have hop : op ≠ .none := by rintro rfl; simp at hi
    exact (h.sleepOnEmpty hop he hk).silent
  | init _ _ _ hr b => exact (h.emptiedByInit hr b).respond ..
  | ctrl _ _ _ hr b => exact (h.setBlock hr b).respond ..
  | reset => exact (State.Inv.powerOn h.config).setInputs _
  | sleep hs => exact (h.enterSleep hs).silent
  | sleepAgain hs he =>
    have hrun : s.sync ≠ .run := by rw [hs]; nofun
    exact (h.sleepOnEmpty (mt h.pending.1 hrun) he (h.blocking hrun)).silent

end Invariant

/-- Settles O14: a step is one of the transitions of `Taken`, or nobody moves, and each of them keeps the invariant. -/
theorem everyStepKeepsTheInvariant : Obligations.EveryStepKeepsTheInvariant := by
  intro s t h hst
  obtain ⟨-, ⟨-, rfl⟩ | ⟨e, rest, -, tk⟩⟩ := step_next hst
  · exact h.silent
  · exact tk.inv (h.setInputs rest)

/-- Settles O15: under the invariant an admitted move answers a next state, and any other is refused. -/
theorem theInvariantExcludesEveryFault : Obligations.TheInvariantExcludesEveryFault := by
  intro s f h
  unfold step
  split
  · rw [idleStep_ready h.toReady]; nofun
  · rename_i e rest _
    have hi := h.setInputs rest
    by_cases he : e.Admitted (s.setInputs rest)
    · obtain ⟨t, ht⟩ := deliver_of_admitted hi he
      rw [ht]; nofun
    · rw [deliver_of_not_admitted hi.toReady he]; nofun

/-! ## COUNT, EMPTY and FULL (rules R22 to R25) -/

/-- COUNT by rule R24's formula on the integers, whose value is never negative. -/
theorem count_eq_emod {s : State} (h : s.Ready) :
    (s.count : Int) = ((s.tail : Int) - s.head) % ((s.cfg.capacity : Int) - 1) := by
  have hc := h.three_le
  exact Int.toNat_of_nonneg (Int.emod_nonneg _ (by omega))

/-- Fewer steps of `next` than COUNT do not lead from TAIL to HEAD. -/
theorem nextIter_ne_head {s : State} (h : s.Ready) {k : Nat} (hk : k < s.count) :
    nextIter s.cfg.capacity k s.tail ≠ s.head := by
  intro e
  have hd := indexDistance_nextIter h.three_le h.index.2 k (hk.trans (count_lt h))
  rw [e] at hd
  exact hk.ne' hd

/-- Settles O8, from the distance between two indices. -/
theorem countIsTheDistanceFromTailToHead : Obligations.CountIsTheDistanceFromTailToHead := by
  intro s h
  have hlt := count_lt h
  exact ⟨count_eq_emod h, nextIter_distance h.three_le h.index.2 h.index.1, fun _ => nextIter_ne_head h, by omega,
    empty_iff_count h, full_iff_count h⟩

/-- An EMPTY buffer is not FULL, since `next` moves HEAD away from TAIL (rule R25). -/
theorem full_false_of_empty {s : State} (h : s.Ready) (he : s.empty = true) : s.full = false := by
  have heq : s.head = s.tail := by simpa [State.empty] using he
  have hne := nextIndex_ne h.three_le h.index.1
  simpa [State.full, ← heq] using hne

/-- Settles O9: `next` has no fixed point. -/
theorem emptyAndFullAreDisjoint : Obligations.EmptyAndFullAreDisjoint :=
  ⟨fun _ _ hc hi => nextIndex_ne hc hi, fun _ h ⟨he, hf⟩ => absurd ((full_false_of_empty h he).symm.trans hf) nofun⟩

/-- Settles O11: the values of rule R33, with EMPTY and FULL derived from HEAD = TAIL. -/
theorem powerOnValues : Obligations.PowerOnValues := by
  refine ⟨fun c hc => ?_, rfl⟩
  have he := State.powerOn_empty c
  exact ⟨rfl, rfl, fun _ => rfl, State.powerOn_rxEn c, State.powerOn_block c, State.powerOn_reserved c, rfl, rfl, he,
    full_false_of_empty (.powerOn hc) he⟩

/-! ## PUSH and POP -/

/-- Settles O21: the byte joins the unread ones, so COUNT grows by one and the flags follow from COUNT. -/
theorem pushStoresAtTheNewHead : Obligations.PushStoresAtTheNewHead := by
  intro s b h hx hf
  have hc := h.three_le
  obtain ⟨hr, hcount, -, -⟩ :=
    push_contents (t := ((s.stored b).respond .producer .ok 0x00#8).wake) h hf b rfl rfl rfl rfl
  refine ⟨((s.stored b).respond .producer .ok 0x00#8).wake, by rw [exec_push h, hx, hf]; rfl, rfl, rfl,
    Memory.read_write_same .., fun a ha => Memory.read_write_other _ _ ha, rfl, rfl, ⟨s.sync.wake_eq, rfl⟩, ⟨rfl, rfl⟩,
    (empty_false_iff_count hr).2 (by omega), ?_, hcount⟩
  rw [full_iff_count hr, hcount]
  show s.count + 1 = s.cfg.capacity - 2 ↔ _
  omega

/-- Settles O25: the first unread byte is returned, so COUNT falls by one and the flags follow from COUNT. -/
theorem popReturnsTheOldestByte : Obligations.PopReturnsTheOldestByte := by
  intro s b h he hb
  obtain ⟨hr, hcount, hcontents⟩ :=
    pop_contents (t := s.advanced.respond .consumer .ok b) h.toReady he rfl rfl rfl rfl
  have hlt : s.count < (s.advanced.respond .consumer .ok b).cfg.capacity - 1 := count_lt h.toReady
  refine ⟨s.advanced.respond .consumer .ok b, by rw [exec_pop h, he, takeByte_some h.toReady he hb]; rfl,
    congrArg (fun w => some (Response.mk .consumer w)) (responseWord_ok b), rfl, rfl, fun _ => rfl, rfl, ⟨rfl, rfl⟩,
    ⟨rfl, rfl⟩, (full_false_iff_count hr).2 (by omega), ?_, hcount, hb ▸ hcontents⟩
  rw [empty_iff_count hr]
  omega

/-! ## Who writes what (rules R13, R18 to R21) -/

section Writers
variable {s t : State} {e : Event}

theorem Event.issues.of_decode {p : Port} {w : Word} {i : Instr} (hd : decode p w = .instr i) :
    (Event.word p w).issues i := .inl ⟨p, w, rfl, hd⟩

theorem Taken.head_writers (tk : Taken s e t) : t.head = s.head ∨
    (∃ b, e.issues (.push b)) ∨ (∃ blk, e.issues (.init blk)) ∨ e = .reset := by
  cases tk with
  | stored _ b he => exact .inr (.inl ⟨b, he⟩)
  | init _ blk hd => exact .inr (.inr (.inl ⟨blk, .of_decode hd⟩))
  | reset => exact .inr (.inr (.inr rfl))
  | _ => exact .inl rfl

theorem Taken.tail_writers (tk : Taken s e t) : t.tail = s.tail ∨
    e.issues .pop ∨ e.issues .get ∨ (e = .recheck ∧ s.pend = .get) ∨ (∃ blk, e.issues (.init blk)) ∨ e = .reset := by
  cases tk with
  | popByte _ hd => exact .inr (.inl (.of_decode hd))
  | getByte _ hd => exact .inr (.inr (.inl (.of_decode hd)))
  | recheckGet _ _ hp => exact .inr (.inr (.inr (.inl ⟨rfl, hp⟩)))
  | init _ blk hd => exact .inr (.inr (.inr (.inr (.inl ⟨blk, .of_decode hd⟩))))
  | reset => exact .inr (.inr (.inr (.inr (.inr rfl))))
  | _ => exact .inl rfl

theorem Taken.data_writers (tk : Taken s e t) : t.data = s.data ∨ (∃ b, e.issues (.push b)) ∨ e = .reset := by
  cases tk with
  | stored _ b he => exact .inr (.inl ⟨b, he⟩)
  | reset => exact .inr (.inr rfl)
  | _ => exact .inl rfl

/-- RX_EN is set by INIT and cleared by reset alone (rule R20). -/
theorem Taken.rxEn_writers (tk : Taken s e t) : t.rxEn = s.rxEn ∨
    (t.rxEn = true ∧ ∃ blk, e.issues (.init blk)) ∨ (t.rxEn = false ∧ e = .reset) := by
  cases tk with
  | init _ blk hd => exact .inr (.inl ⟨ctrlEnableRx_rxEn _, blk, .of_decode hd⟩)
  | ctrl => exact .inl (ctrlSetBlock_rxEn ..)
  | reset => exact .inr (.inr ⟨State.powerOn_rxEn s.cfg, rfl⟩)
  | _ => exact .inl rfl

theorem Taken.block_writers (tk : Taken s e t) : t.block = s.block ∨
    (∃ blk, e.issues (.init blk) ∨ e.issues (.ctrl blk)) ∨ e = .reset := by
  cases tk with
  | init _ blk hd => exact .inr (.inl ⟨blk, .inl (.of_decode hd)⟩)
  | ctrl _ blk hd => exact .inr (.inl ⟨blk, .inr (.of_decode hd)⟩)
  | reset => exact .inr (.inr rfl)
  | _ => exact .inl rfl

end Writers

/-- Settles O47: the writers of each register, read off the transitions of `Taken`. -/
theorem eachRegisterHasItsOwnWriters : Obligations.EachRegisterHasItsOwnWriters := by
  intro s t e rest hst
  obtain ⟨-, tk⟩ := step_facing_next hst
  obtain ⟨hcfg, hin⟩ := tk.sameSurroundings
  refine ⟨tk.head_writers.resolve_left, tk.tail_writers.resolve_left, fun hd => ?_, tk.rxEn_writers.resolve_left,
    tk.block_writers.resolve_left, hcfg, hin⟩
  exact tk.data_writers.resolve_left fun he => hd fun a => congrArg (Memory.read · a) he

/-! ## The faults (rules R17, R29) -/

/-- The guard lets no transition past an index out of range (rule R17). -/
theorem guarded_of_index_out_of_range {s : State} (hc : s.cfg.WellFormed) (hi : ¬s.indexOk)
    (k : State → Host.Outcome State Fault Refusal) : guarded s k = .fault .indexRange := by
  simp only [guarded, hc, if_neg hi]

/-- Settles O18: what the guard answers, every step and every operation answers. -/
theorem indexOutOfRangeIsAFault : Obligations.IndexOutOfRangeIsAFault := fun _ hc hi =>
  ⟨step_of_guard (guarded_of_index_out_of_range hc hi), exec_of_guard (guarded_of_index_out_of_range hc hi)⟩

/-- A pop stops where the oldest slot holds no value (notes/assumptions/5.md). -/
theorem takeByte_none {s : State} (h : s.Ready) (he : s.empty = false)
    (hn : Memory.read s.data (nextIndex s.cfg.capacity s.tail) = none)
    (k : Byte → State → Host.Outcome State Fault Refusal) : takeByte s k = .fault .slotWithoutValue := by
  simp only [takeByte, readSlot_next_tail h he, hn]

/-- The completion of a GET pops the oldest byte, so it stops with the pop. -/
theorem complete_get_none {s : State} (h : s.Ready) (he : s.empty = false)
    (hn : Memory.read s.data (nextIndex s.cfg.capacity s.tail) = none) :
    complete .get s = .fault .slotWithoutValue := by
  unfold complete
  exact takeByte_none h he hn _

/-- Settles O28: POP, GET and the re-check of a GET all come to the same pop. -/
theorem aSlotWithoutValueIsNeverReturned : Obligations.ASlotWithoutValueIsNeverReturned := by
  intro s h he hn
  refine ⟨fun hs => ⟨?_, ?_⟩, fun rest hs hp => ?_⟩
  · rw [exec_pop ⟨h, hs⟩, if_neg (by simp [he])]
    exact takeByte_none h he hn _
  · rw [exec_get ⟨h, hs⟩, check, if_pos he]
    exact complete_get_none h he hn
  · have hr := h.setInputs rest
    have he' : (s.setInputs rest).empty = false := he
    rw [step_facing, deliver_recheck hr, State.setInputs_sync, State.setInputs_pend, if_pos hs, if_pos he', hp]
    exact complete_get_none hr he' hn

end Sys2Proof.Machine
end

section
/-! PROOFS. The index step as one cycle, what each transition does to the unread bytes, the FIFO law, and the statements
of `20_memory.md` that follow. -/

namespace Sys2Proof.Machine

/-! ## The index step (rules R34, R35) -/

/-- Settles O6: the two cases of `next` on a legal index. -/
theorem nextDecrementsAndWraps : Obligations.NextDecrementsAndWraps := by
  intro c i hc hi
  have hn := nextIndex_legal hc hi
  refine ⟨fun h2 => if_pos h2, ?_, hn, Nat.one_le_iff_ne_zero.1 hn.1⟩
  rintro rfl
  rfl

/-- One step of `next` counts down by one modulo C-1, on indices taken from 1. -/
theorem nextIndex_eq_emod {c i : Nat} (hc : 3 ≤ c) (h : legalIndex c i) :
    ((nextIndex c i : Nat) : Int) = ((i : Int) - 1 - 1) % ((c : Int) - 1) + 1 := by
  obtain ⟨h1, h2⟩ := h
  unfold nextIndex
  split
  · rw [Int.emod_eq_of_lt (by omega) (by omega)]; omega
  · rw [← Int.add_emod_right, Int.emod_eq_of_lt (by omega) (by omega)]; omega

/-- Rule R35's closed form of `next^k`. -/
theorem nextIter_eq_emod {c i : Nat} (hc : 3 ≤ c) (h : legalIndex c i) (k : Nat) :
    ((nextIter c k i : Nat) : Int) = ((i : Int) - 1 - k) % ((c : Int) - 1) + 1 := by
  induction k with
  | zero =>
    obtain ⟨h1, h2⟩ := h
    rw [Int.emod_eq_of_lt (by omega) (by omega)]
    simp [nextIter]
  | succ k ih =>
    rw [nextIter_succ, nextIndex_eq_emod hc (nextIter_legal hc k h), ih, add_sub_cancel_right, Int.emod_sub_emod,
      Nat.cast_add_one, sub_sub _ (k : Int)]

/-- `next^k` comes back to its start exactly at the multiples of C-1. -/
theorem nextIter_eq_self_iff {c i : Nat} (hc : 3 ≤ c) (h : legalIndex c i) (k : Nat) :
    nextIter c k i = i ↔ (c - 1) ∣ k := by
  have hform := nextIter_eq_emod hc h k
  obtain ⟨h1, h2⟩ := h
  have hstart : ((i : Int) - 1) % ((c : Int) - 1) = i - 1 := Int.emod_eq_of_lt (by omega) (by omega)
  calc nextIter c k i = i
      ↔ ((i : Int) - 1 - k) % ((c : Int) - 1) = ((i : Int) - 1) % ((c : Int) - 1) := by rw [hstart]; omega
    _ ↔ ((c : Int) - 1) ∣ k := by
      rw [eq_comm, Int.emod_eq_emod_iff_emod_sub_eq_zero, sub_sub_cancel, Int.dvd_iff_emod_eq_zero]
    _ ↔ (c - 1) ∣ k := by rw [← Int.natCast_dvd_natCast, Nat.cast_sub (by omega), Nat.cast_one]

/-- Settles O7: the closed form gives the period, and the distance between two indices the steps from one to the
other. -/
theorem nextIsOneCycle : Obligations.NextIsOneCycle := fun _ hc =>
  ⟨fun _ k hi => nextIter_eq_emod hc hi k, fun _ _ => nextIndex_inj,
    fun _ _ hi hj => ⟨_, indexDistance_lt hc hi hj, nextIter_distance hc hi hj⟩,
    fun _ k hi => nextIter_eq_self_iff hc hi k, rfl, rfl, rfl⟩

/-! ## What a transition does to the unread bytes (rules R36, R44) -/

/-- A move that issues the PUSH of a byte pushes that byte, and is no reset or INIT. -/
theorem Event.issues.pushed {e : Event} {b : Byte} (h : e.issues (.push b)) :
    e.clears = false ∧ e.pushed = some b := by
  obtain ⟨p, w, rfl, hd⟩ | ⟨b', rfl, hb⟩ := h
  · simp [Event.clears, Event.pushed, hd]
  · cases hb; exact ⟨rfl, rfl⟩

/-- The byte of an OK response word (rule R57). -/
theorem responseWord_ok_byte (b : Byte) : (responseWord .ok b).extractLsb' 0 8 = b := by
  rw [responseWord_ok]
  apply BitVec.eq_of_toNat_eq
  have := b.isLt
  simp; omega

/-- An INIT that sets BLOCK has no conflicting pair (rule R95). -/
theorem ne_both_of_initBlock {c : Config} {blk : Blk} {b : Bool} (h : initBlock c blk = some b) : blk ≠ .both := by
  rintro rfl; cases h

/-- What a transition does to the unread bytes, with the part of the history and of the response that tells it: they are
all dropped, one joins at the end, the first is returned, or they stay. -/
inductive Effect (s : State) (e : Event) (t : State) : Prop where
  | emptied (hc : e.clears = true) (hp : e.pushed = none) (ht : e.takes s = false) (hu : t.contents = [])
  | accepted (b : Byte) (hc : e.clears = false) (hp : e.pushed = some b)
      (hr : t.resp = some ⟨.producer, responseWord .ok 0x00#8⟩) (hu : t.contents = s.contents ++ [some b])
  | returned (b : Byte) (hc : e.clears = false) (hp : e.pushed = none) (ht : e.takes s = true)
      (hr : t.resp = some ⟨.consumer, responseWord .ok b⟩) (hu : s.contents = some b :: t.contents)
  | kept (hc : e.clears = false)
      (hr : ∀ r, t.resp = some r → isOk r.word = true → e.pushed = none ∧ e.takes s = false)
      (hu : t.contents = s.contents)

section Transition
variable {s t : State} {e : Event}

/-- A response other than OK leaves the unread bytes, whatever the move. -/
theorem Effect.of_not_ok (hc : e.clears = false) {p : Port} {rc : Rc} {d : Byte}
    (hr : t.resp = some ⟨p, responseWord rc d⟩) (hrc : rc ≠ .ok) (hu : t.contents = s.contents) : Effect s e t :=
  .kept hc (fun r h hok => by
    obtain rfl := Option.some.inj (hr.symm.trans h)
    exact absurd hok (by simp [isOk_responseWord, hrc])) hu

/-- A move that neither pushes nor takes leaves the unread bytes, whatever the response. -/
theorem Effect.of_neither (hc : e.clears = false) (hp : e.pushed = none) (ht : e.takes s = false)
    (hu : t.contents = s.contents) : Effect s e t :=
  .kept hc (fun _ _ _ => ⟨hp, ht⟩) hu

/-- The oldest byte popped and returned. -/
theorem Effect.of_pop (hready : s.Ready) (he : s.empty = false) {b : Byte}
    (hb : Memory.read s.data (nextIndex s.cfg.capacity s.tail) = some b) (hc : e.clears = false)
    (hp : e.pushed = none) (ht : e.takes s = true) (hr : t.resp = some ⟨.consumer, responseWord .ok b⟩)
    (hcfg : t.cfg = s.cfg) (hdata : t.data = s.data) (hhead : t.head = s.head)
    (htail : t.tail = nextIndex s.cfg.capacity s.tail) : Effect s e t := by
  obtain ⟨-, -, hu⟩ := pop_contents hready he hcfg hhead htail hdata
  exact .returned b hc hp ht hr (hb ▸ hu)

/-- Every transition has one of the four effects. -/
theorem Taken.effect (tk : Taken s e t) (h : s.Ready) : Effect s e t := by
  cases tk with
  | illegal p w why hd => exact .of_not_ok (by simp [Event.clears, hd]) rfl nofun rfl
  | rxOff _ b he => exact .of_not_ok he.pushed.1 rfl nofun rfl
  | dropped _ b he => exact .of_not_ok he.pushed.1 rfl nofun rfl
  | stored _ b he hx hf =>
    obtain ⟨hc, hp⟩ := he.pushed
    obtain ⟨-, -, hu, -⟩ :=
      push_contents (t := ((s.stored b).respond .producer .ok 0x00#8).wake) h hf b rfl rfl rfl rfl
    exact .accepted b hc hp rfl hu
  | popEmpty w hd => exact .of_not_ok (by simp [Event.clears, hd]) rfl nofun rfl
  | popByte w hd _ he b hb | getByte w hd _ he b hb =>
    exact .of_pop h he hb (by simp [Event.clears, hd]) (by simp [Event.pushed, hd]) (by simp [Event.takes, hd])
      rfl rfl rfl rfl rfl
  | isempty w hd | status w hd | waitOk w hd | close w hd | ctrl w blk hd =>
    exact .of_neither (by simp [Event.clears, hd]) (by simp [Event.pushed, hd]) (by simp [Event.takes, hd]) rfl
  | wouldBlock w i hi hd =>
    refine .of_not_ok ?_ rfl nofun rfl
    rcases hi with rfl | rfl <;> simp [Event.clears, hd]
  | fallAsleep w i op hi hd =>
    refine .kept ?_ nofun rfl
    rcases hi with ⟨rfl, -⟩ | ⟨rfl, -⟩ <;> simp [Event.clears, hd]
  | init w blk hd _ b hb =>
    have hblk := ne_both_of_initBlock hb
    exact .emptied (by simp [Event.clears, hd, hblk]) (by simp [Event.pushed, hd]) (by simp [Event.takes, hd])
      (contents_of_head_eq_tail rfl)
  | invalid w i hi hd =>
    refine .of_not_ok ?_ rfl nofun rfl
    rcases hi with rfl | rfl <;> simp [Event.clears, hd]
  | irqx | sleep | sleepAgain => exact .kept rfl nofun rfl
  | reset => exact .emptied rfl rfl rfl (contents_of_head_eq_tail rfl)
  | recheckWait _ _ hp => exact .of_neither rfl rfl (by simp [Event.takes, hp]) rfl
  | recheckGet _ he hp b hb => exact .of_pop h he hb rfl rfl (by simp [Event.takes, hp]) rfl rfl rfl rfl rfl

end Transition

/-! ## The FIFO law (rule R44) -/

/-- Where a history fits, the bytes returned are the first of those accepted, and COUNT is how many are still to
come. -/
theorem History.Fits.returned_first_and_length {h : History} {s : State} (hf : h.Fits s) :
    h.returned <+: h.accepted ∧ h.accepted.length = h.returned.length + s.count := by
  obtain ⟨done, rest, hsplit, hdone, -⟩ := List.map_eq_append_iff.1 hf
  obtain rfl := List.map_injective_iff.2 (Option.some_injective _) hdone
  exact ⟨⟨rest, hsplit.symm⟩, by simpa using congrArg List.length hf⟩

/-- With nothing accepted and nothing returned, a history fits a buffer without unread bytes. -/
theorem History.Fits.nil {s : State} (h : s.contents = []) : History.Fits ⟨[], []⟩ s := h.symm

/-- Each effect moves the history and the unread bytes together. -/
theorem Effect.fits {s t : State} {e : Event} (eff : Effect s e t) {h : History} (hf : h.Fits s) :
    (h.record e s t).Fits t := by
  unfold History.Fits at hf
  cases eff with
  | emptied hc _ _ hu =>
    rw [History.record, if_pos hc]
    exact .nil hu
  | accepted b hc hp hr hu =>
    have hrec : h.record e s t = ⟨h.accepted ++ [b], h.returned⟩ := by
      simp [History.record, hc, hp, hr, isOk_responseWord]
    rw [hrec, History.Fits, hu]
    simp [hf]
  | returned b hc hp ht hr hu =>
    have hrec : h.record e s t = ⟨h.accepted, h.returned ++ [b]⟩ := by
      simp [History.record, hc, hp, ht, hr, isOk_responseWord, responseWord_ok_byte]
    rw [hrec, History.Fits]
    simp [hf, hu]
  | kept hc hr hu =>
    have hrec : h.record e s t = h := by
      unfold History.record
      rw [hc]
      cases hresp : t.resp with
      | none => rfl
      | some r =>
        cases hok : isOk r.word with
        | false => simp [hok]
        | true =>
          obtain ⟨hp, ht⟩ := hr r hresp hok
          simp [hok, hp, ht]
    rw [hrec, History.Fits, hu, hf]

/-- A step on a scheduled move keeps the FIFO law, with the move recorded. -/
theorem Taken.fits {s t : State} {e : Event} {es : List Event} (tk : Taken (s.setInputs es) e t) (hs : s.Ready)
    {h : History} (hf : h.Fits s) : (h.record e s t).Fits t :=
  (tk.effect (hs.setInputs es)).fits (s := s.setInputs es) hf

/-- Settles O59: every transition has one of the four effects on the unread bytes, and the history records each. -/
theorem everyStepKeepsTheFifoLaw : Obligations.EveryStepKeepsTheFifoLaw := by
  refine ⟨fun s t e rest h hs hf hst => (step_facing_next hst).2.fits hs.toReady hf, fun s t h _ hf hin hst => ?_,
    fun c es _ => .nil (contents_of_head_eq_tail rfl), fun s h hf => hf.returned_first_and_length⟩
  obtain ⟨-, ⟨-, rfl⟩ | ⟨e, rest, hcons, -⟩⟩ := step_next hst
  · exact hf.congr rfl
  · exact absurd (hin.symm.trans hcons) nofun

/-- A run with its history goes on from the state its first step answers, with that step's move recorded. -/
theorem runHistory_succ {n : Nat} {s : State} {h : History} {r : State × History}
    (hrun : runHistory (n + 1) s h = some r) : ∃ t, step s = .next t ∧
      ((s.inputs = [] ∧ runHistory n t h = some r) ∨
        ∃ e rest, s.inputs = e :: rest ∧ runHistory n t (h.record e s t) = some r) := by
  unfold runHistory at hrun
  split at hrun
  · rename_i t hst
    refine ⟨t, hst, ?_⟩
    split at hrun
    · exact .inl ⟨‹_›, hrun⟩
    · exact .inr ⟨_, _, ‹_›, hrun⟩
  · cases hrun

/-- The FIFO law along a run. -/
theorem runHistory_fits {n : Nat} {s t : State} {h h' : History} (hs : s.Inv) (hf : h.Fits s)
    (hrun : runHistory n s h = some (t, h')) : h'.Fits t := by
  induction n generalizing s h with
  | zero => cases hrun; exact hf
  | succ n ih =>
    obtain ⟨keeps, keepsIdle, -, -⟩ := everyStepKeepsTheFifoLaw
    obtain ⟨u, hst, ⟨hin, hrun⟩ | ⟨e, rest, hin, hrun⟩⟩ := runHistory_succ hrun
    · exact ih (everyStepKeepsTheInvariant s u hs hst) (keepsIdle s u h hs hf hin hst) hrun
    · have hfacing : s.facing e rest = s := by rw [State.facing, ← hin]; rfl
      exact ih (everyStepKeepsTheInvariant s u hs hst) (keeps s u e rest h hs hf (hfacing ▸ hst)) hrun

/-- Settles O51: the empty history fits the power-on state, and every step of the run keeps the law. -/
theorem bytesReturnInTheOrderTheyWereAccepted : Obligations.BytesReturnInTheOrderTheyWereAccepted := by
  intro c es n t h hc hrun
  have hf : h.Fits t :=
    runHistory_fits ((State.Inv.powerOn hc).setInputs es) (.nil (contents_of_head_eq_tail rfl)) hrun
  obtain ⟨hfirst, hlength⟩ := hf.returned_first_and_length
  exact ⟨hfirst, hlength, hf⟩

/-! ## COUNT (rule R36) -/

/-- COUNT is the number of unread bytes, so each effect says how it changes. -/
theorem Effect.count_follows {s t : State} {e : Event} (eff : Effect s e t) :
    (e.clears = true → t.count = 0) ∧
    ((∃ b, e.pushed = some b) → Answered t .producer 0x0000#16 → t.count = s.count + 1) ∧
    (e.takes s = true → (∃ w, Answered t .consumer w ∧ isOk w = true) → t.count + 1 = s.count) ∧
    (e.clears = false → ((∃ b, e.pushed = some b) → ¬Answered t .producer 0x0000#16) →
      (e.takes s = true → ∀ w, Answered t .consumer w → isOk w = false) → t.count = s.count) := by
  cases eff with
  | emptied hc hp ht hu =>
    have hcount : t.count = 0 := by rw [← t.contents_length, hu]; rfl
    simp [hc, hp, ht, hcount]
  | accepted b hc hp hr hu =>
    have hcount : t.count = s.count + 1 := by simpa using congrArg List.length hu
    refine ⟨by simp [hc], fun _ _ => hcount, ?_, fun _ hno => absurd hr (hno ⟨b, hp⟩)⟩
    rintro - ⟨w, hw, -⟩
    cases hr.symm.trans hw
  | returned b hc hp ht hr hu =>
    have hcount : s.count = t.count + 1 := by simpa using congrArg List.length hu
    exact ⟨by simp [hc], by simp [hp], fun _ _ => hcount.symm,
      fun _ _ hno => absurd (hno ht _ hr) (by simp [isOk_responseWord])⟩
  | kept hc hr hu =>
    have hcount : t.count = s.count := by simpa using congrArg List.length hu
    refine ⟨by simp [hc], ?_, ?_, fun _ _ _ => hcount⟩
    · rintro ⟨b, hb⟩ hanswered
      obtain ⟨hp, -⟩ := hr _ hanswered (by decide)
      exact absurd (hp.symm.trans hb) nofun
    · rintro ht ⟨w, hw, hok⟩
      obtain ⟨-, hn⟩ := hr _ hw hok
      exact absurd (hn.symm.trans ht) nofun

/-- Settles O50: a step on a scheduled move has one of the four effects. -/
theorem countFollowsTheResponses : Obligations.CountFollowsTheResponses := by
  intro s t e rest _ hst
  obtain ⟨hready, tk⟩ := step_facing_next hst
  exact (tk.effect hready).count_follows

/-! ## PUSH and the unread bytes (rules R42, R45) -/

/-- A PUSH in a ready state is answered RX_OFF, or DROPPED on a full buffer, or is stored (rules R66 to R68). -/
theorem exec_push_next {s t : State} {b : Byte} (h : s.Ready) (hst : exec (.push b) s = .next t) :
    t = s.respond .producer .rxOff 0x00#8 ∨
    (s.full = true ∧ t = (s.respond .producer .dropped 0x00#8).wake) ∨
    (s.full = false ∧ t = ((s.stored b).respond .producer .ok 0x00#8).wake) := by
  rw [exec_push h] at hst
  split at hst
  · cases hst; exact .inl rfl
  · split at hst
    · cases hst; exact .inr (.inl ⟨‹_›, rfl⟩)
    · cases hst; exact .inr (.inr ⟨eq_false_of_ne_true ‹_›, rfl⟩)

/-- Every unread byte of `s` stands unread in its slot in `t`, after the same TAIL, and the consumer port is open in `t`
if it was: what PUSHes keep of the buffer. -/
structure UnreadKept (s t : State) : Prop where
  ready : t.Ready
  cfg : t.cfg = s.cfg
  tail : t.tail = s.tail
  run : s.sync = .run → t.sync = .run
  unread : ∀ i, s.unread i → t.unread i ∧ Memory.read t.data i = Memory.read s.data i

theorem UnreadKept.of_sameRegisters {s t : State} (h : s.Ready) (hcfg : t.cfg = s.cfg) (hdata : t.data = s.data)
    (hhead : t.head = s.head) (htail : t.tail = s.tail) (hrun : s.sync = .run → t.sync = .run) : UnreadKept s t :=
  ⟨h.congr hcfg hhead htail, hcfg, htail, hrun, fun i hi =>
    ⟨by simpa only [State.unread, State.count, hcfg, hhead, htail] using hi, by rw [hdata]⟩⟩

theorem UnreadKept.trans {s t u : State} (h : UnreadKept s t) (h' : UnreadKept t u) : UnreadKept s u where
  ready := h'.ready
  cfg := h'.cfg.trans h.cfg
  tail := h'.tail.trans h.tail
  run := h'.run ∘ h.run
  unread i hi :=
    have ⟨hi', hread⟩ := h.unread i hi
    have ⟨hi'', hread'⟩ := h'.unread i hi'
    ⟨hi'', hread'.trans hread⟩

/-- The slot an accepted PUSH writes is none of the unread ones, and these stay unread since COUNT only grows. -/
theorem UnreadKept.stored {s : State} (h : s.Ready) (hf : s.full = false) (b : Byte) : UnreadKept s (s.stored b) := by
  obtain ⟨hr, hcount, -, hnew⟩ := push_contents (t := s.stored b) h hf b rfl rfl rfl rfl
  refine ⟨hr, rfl, rfl, id, fun i hi => ⟨?_, Memory.read_write_other _ _ fun e => hnew (e ▸ hi)⟩⟩
  obtain ⟨hlegal, hone, hle⟩ := hi
  exact ⟨hlegal, hone, hle.trans (by omega)⟩

theorem UnreadKept.exec_push {s t : State} {b : Byte} (h : s.Ready) (hst : exec (.push b) s = .next t) :
    UnreadKept s t := by
  have hwake := s.sync.wake_eq_run.2
  obtain rfl | ⟨-, rfl⟩ | ⟨hf, rfl⟩ := exec_push_next h hst
  · exact .of_sameRegisters h rfl rfl rfl rfl id
  · exact .of_sameRegisters h rfl rfl rfl rfl hwake
  · have hs := UnreadKept.stored h hf b
    exact hs.trans (.of_sameRegisters hs.ready rfl rfl rfl rfl hwake)

/-- Settles O23: a PUSH that moves HEAD stored its byte in a slot that was not unread; any other leaves the buffer. -/
theorem pushNeverOverwritesUnreadData : Obligations.PushNeverOverwritesUnreadData := by
  intro s t b h hst
  have hkept := UnreadKept.exec_push h hst
  obtain rfl | ⟨-, rfl⟩ | ⟨hf, rfl⟩ := exec_push_next h hst
  · exact ⟨absurd rfl, hkept.unread, fun _ => ⟨fun _ => rfl, rfl, rfl, rfl⟩⟩
  · exact ⟨absurd rfl, hkept.unread, fun _ => ⟨fun _ => rfl, rfl, rfl, rfl⟩⟩
  · obtain ⟨-, -, hcontents, hnew⟩ :=
      push_contents (t := ((s.stored b).respond .producer .ok 0x00#8).wake) h hf b rfl rfl rfl rfl
    have hne : nextIndex s.cfg.capacity s.head ≠ s.tail := by simpa [State.full] using hf
    exact ⟨fun _ => ⟨hne, hnew, hcontents⟩, hkept.unread, fun hfull => absurd (hf.symm.trans hfull) nofun⟩

/-! ## POP split into its parts (rule R42) -/

theorem pushAll_cons {b : Byte} {bs : List Byte} {s u : State} (h : pushAll (b :: bs) s = some u) :
    ∃ t, exec (.push b) s = .next t ∧ pushAll bs t = some u := by
  unfold pushAll at h
  split at h
  · exact ⟨_, ‹_›, h⟩
  · cases h

theorem UnreadKept.pushAll {bs : List Byte} {s t : State} (h : s.Ready) (hp : pushAll bs s = some t) :
    UnreadKept s t := by
  induction bs generalizing s with
  | nil => cases hp; exact .of_sameRegisters h rfl rfl rfl rfl id
  | cons b bs ih =>
    obtain ⟨u, hst, hp⟩ := pushAll_cons hp
    have hu := UnreadKept.exec_push h hst
    exact hu.trans (ih hu.ready hp)

/-- A buffer with an unread slot is not empty. -/
theorem empty_false_of_unread {s : State} (h : s.Ready) {i : Nat} (hi : s.unread i) : s.empty = false := by
  obtain ⟨-, hone, hle⟩ := hi
  exact (empty_false_iff_count h).2 (by omega)

/-- POP on a buffer whose oldest slot holds a byte returns it (rule R72). -/
theorem exec_pop_data {s : State} {b : Byte} (h : s.Quiescent) (he : s.empty = false)
    (hb : Memory.read s.data (nextIndex s.cfg.capacity s.tail) = some b) :
    exec .pop s = .next (s.advanced.respond .consumer .ok b) := by
  rw [exec_pop h, he, takeByte_some h.toReady he hb]; rfl

/-- Settles O53: the PUSHes keep the oldest byte unread in its slot after TAIL, so the early read finds it, and so does
the POP at the end. -/
theorem splitPopIsAtomicAtItsWrite : Obligations.SplitPopIsAtomicAtItsWrite := by
  intro s s₁ s₂ before after h hrun he hbefore hafter
  have holdest := unread_next_tail h.toReady he
  obtain ⟨b, hb⟩ := h.written _ holdest
  have kept₁ := UnreadKept.pushAll h.toReady hbefore
  have kept₂ := kept₁.trans (.pushAll kept₁.ready hafter)
  obtain ⟨hunread, hread⟩ := kept₂.unread _ holdest
  have hslot : nextIndex s₂.cfg.capacity s₂.tail = nextIndex s.cfg.capacity s.tail := by
    rw [kept₂.cfg, kept₂.tail]
  have hpop := exec_pop_data ⟨kept₂.ready, kept₂.run hrun⟩ (empty_false_of_unread kept₂.ready hunread)
    (hslot ▸ hread.trans hb)
  rw [State.advanced, hslot] at hpop
  exact ⟨b, (kept₁.unread _ holdest).2.trans hb, responseWord_ok b ▸ hpop⟩

/-- A full buffer of three slots, its one unread byte in slot 2. -/
def fullOfThree : State where
  cfg := ⟨3, 1, false, true, 1, 1, true, true⟩
  data := [(2, 0x41#8)]
  head := 2
  tail := 1
  ctrl := 0x01#8
  sync := .run
  pend := .none
  inputs := []
  resp := none

theorem fullOfThree_inv : fullOfThree.Inv := .of_check (by decide)

/-- Refutes O54: in a full buffer the byte pushed between test and read is dropped and HEAD stays at 2, while after an
atomic POP at the test it is stored and HEAD moves to 1. -/
theorem not_splitPopIsAtomicAtItsTest : ¬ Obligations.SplitPopIsAtomicAtItsTest := by
  intro h
  have hsame := h fullOfThree _ _ _ _ [0x42#8] [] fullOfThree_inv rfl rfl rfl rfl rfl rfl
  exact absurd hsame.head (by decide)

/-! ## The reading operations twice (rule R40) -/

/-- A consumer operation answers a next state only in a quiescent state (rule R76). -/
theorem exec_consumer_next {s t : State} {i : Instr} (hi : i.port = .consumer) (h : exec i s = .next t) :
    s.Quiescent := by
  obtain ⟨k, hk⟩ := exec_eq_accepted i
  rw [hk] at h
  obtain ⟨hr, hrun, -⟩ := accepted_next h
  exact ⟨hr, hrun hi⟩

theorem State.Quiescent.respond {s : State} (h : s.Quiescent) (p : Port) (rc : Rc) (d : Byte) :
    (s.respond p rc d).Quiescent := ⟨h.toReady.congr rfl rfl rfl, h.run⟩

theorem State.Quiescent.endWait {s : State} (h : s.Quiescent) : s.endWait.Quiescent :=
  ⟨h.toReady.congr rfl rfl rfl, rfl⟩

/-- WAIT on a buffer that holds data completes (rules R77, R84). -/
theorem exec_wait_data {s : State} (h : s.Quiescent) (he : s.empty = false) :
    exec .wait s = .next (s.endWait.respond .consumer .ok 0x00#8) := by
  rw [exec_wait h, check, if_pos he]; rfl

/-- Settles O29: each of the four leaves a state in which it answers that same state, for it changes neither the buffer
nor, once the wait has ended, SYNC and PEND. -/
theorem readingOperationsAreIdempotent : Obligations.ReadingOperationsAreIdempotent := by
  intro s t i hi hst
  have hport : i.port = .consumer := by rcases hi with rfl | rfl | rfl | ⟨rfl, -⟩ <;> rfl
  have h := exec_consumer_next hport hst
  obtain rfl | rfl | rfl | ⟨rfl, he⟩ := hi
  · cases (exec_isempty h).symm.trans hst
    exact exec_isempty (h.respond ..)
  · cases (exec_status h).symm.trans hst
    exact exec_status (h.respond ..)
  · cases (exec_close h).symm.trans hst
    exact exec_close (h.respond ..)
  · cases (exec_wait_data h he).symm.trans hst
    exact exec_wait_data (h.endWait.respond ..) he

end Sys2Proof.Machine
end

section
/-! PROOFS. Operation words as numbers and back, what a step on a word answers, and the statements of `30_encoding.md`
that follow. -/

namespace Sys2Proof

/-! ## Words rebuilt from their used fields (rules R50 to R54) -/

/-- A word has these fields when it is the number they spell (rule R50). -/
theorem Word.ofFields_eq_of_toNat {w : Word} {op : BitVec 4} {blk rsv : BitVec 2} {d : Byte}
    (h : w.toNat = op.toNat * 4096 + blk.toNat * 1024 + rsv.toNat * 256 + d.toNat) : Word.ofFields op blk rsv d = w :=
  BitVec.eq_of_toNat_eq ((Word.ofFields_toNat ..).trans h.symm)

/-- A word with zero in bits 11:0 is its OP alone. -/
theorem Word.ofFields_of_op {w : Word} {op : BitVec 4} (hop : op = Word.op w) (hu : w &&& 0x0FFF#16 = 0#16) :
    Word.ofFields op 0b00#2 0b00#2 0x00#8 = w := by
  rw [and_0FFF_eq_zero] at hu
  apply Word.ofFields_eq_of_toNat
  rw [hop, Word.op_toNat]
  simp only [BitVec.toNat_ofNat]; omega

/-- A word with zero in bits 9:0 is its OP and its BLK. -/
theorem Word.ofFields_of_op_blk {w : Word} {op : BitVec 4} (hop : op = Word.op w) (hu : w &&& 0x03FF#16 = 0#16) :
    Word.ofFields op (Blk.ofBits (Word.blk w)).bits 0b00#2 0x00#8 = w := by
  rw [and_03FF_eq_zero] at hu
  apply Word.ofFields_eq_of_toNat
  rw [hop, Blk.bits_ofBits, Word.op_toNat, Word.blk_toNat]
  simp only [BitVec.toNat_ofNat]; omega

/-- A word with zero in bits 11:8 is its OP and its DATA. -/
theorem Word.ofFields_of_op_data {w : Word} {op : BitVec 4} (hop : op = Word.op w) (hu : w &&& 0x0F00#16 = 0#16) :
    Word.ofFields op 0b00#2 0b00#2 (Word.data w) = w := by
  rw [and_0F00_eq_zero] at hu
  apply Word.ofFields_eq_of_toNat
  rw [hop, Word.op_toNat, Word.data_toNat]
  simp only [BitVec.toNat_ofNat]; omega

/-- What a row builds from a word whose unused bits are 0 is encoded as that word (rule R54): the used fields are all
there is of it. -/
theorem encode_build {w : Word} {r : OpRow} (h : opRow (Word.op w) = some r) (hu : w &&& r.unused = 0#16) :
    encode (r.build w) = w := by
  obtain ⟨hmem, hop⟩ := opRow_some h
  simp only [opTable, List.mem_cons, List.not_mem_nil, or_false] at hmem
  rcases hmem with rfl | rfl | rfl | rfl | rfl | rfl | rfl | rfl | rfl
  · exact Word.ofFields_of_op_data hop hu
  · exact Word.ofFields_of_op hop hu
  · exact Word.ofFields_of_op hop hu
  · exact Word.ofFields_of_op hop hu
  · exact Word.ofFields_of_op hop hu
  · exact Word.ofFields_of_op_blk hop hu
  · exact Word.ofFields_of_op_blk hop hu
  · exact Word.ofFields_of_op hop hu
  · exact Word.ofFields_of_op hop hu

/-- The word of PUSH, as rule R63's table writes it. -/
theorem encode_push (b : Byte) : encode (.push b) = 0x1000#16 + b.setWidth 16 := by
  apply BitVec.eq_of_toNat_eq
  have := b.isLt
  rw [encode, Word.ofFields_toNat]
  simp only [BitVec.toNat_add, BitVec.toNat_setWidth, BitVec.toNat_ofNat]; omega

/-- The table's PUSH word decodes to its byte (rule R65). -/
theorem decode_push (b : Byte) : decode .producer (0x1000#16 + b.setWidth 16) = .instr (.push b) :=
  encode_push b ▸ decode_encode (.push b)

/-! ## ILLEGAL words (rules R56, R61) -/

/-- Decoding in rule R56's order: which of the three checks fails first. -/
theorem decode_eq_illegal {p : Port} {w : Word} :
    (decode p w = .illegal .reservedOp ↔ opRow (Word.op w) = none) ∧
    (decode p w = .illegal .wrongPort ↔ ∃ r, opRow (Word.op w) = some r ∧ r.port ≠ p) ∧
    (decode p w = .illegal .unusedField ↔ ∃ r, opRow (Word.op w) = some r ∧ r.port = p ∧ w &&& r.unused ≠ 0#16) := by
  unfold decode
  cases hr : opRow (Word.op w) with
  | none => simp
  | some r => by_cases hp : r.port = p <;> by_cases hu : w &&& r.unused = 0#16 <;> simp [hp, hu]

/-- An OP code has a row when the word is in [0x1000, 0xA000). -/
theorem opRow_exists_iff (w : Word) : (∃ r, opRow (Word.op w) = some r) ↔ 0x1000 ≤ w.toNat ∧ w.toNat < 0xA000 := by
  have h (op : BitVec 4) : (opRow op).isSome ↔ 1 ≤ op.toNat ∧ op.toNat < 10 := by revert op; decide
  rw [← Option.isSome_iff_exists, h, Word.op_toNat]; omega

/-- A row's port and unused bits by its OP code (rules R51, R54). -/
theorem opRow_port_unused {op : BitVec 4} {r : OpRow} (h : opRow op = some r) :
    r.port = (if op.toNat = 1 then .producer else .consumer) ∧
    r.unused = if op.toNat = 1 then 0x0F00#16 else if op.toNat = 6 ∨ op.toNat = 7 then 0x03FF#16 else 0x0FFF#16 := by
  have htable : ∀ r ∈ opTable, r.port = (if r.op.toNat = 1 then .producer else .consumer) ∧ r.unused =
      if r.op.toNat = 1 then 0x0F00#16 else if r.op.toNat = 6 ∨ r.op.toNat = 7 then 0x03FF#16 else 0x0FFF#16 := by
    decide
  obtain ⟨hmem, rfl⟩ := opRow_some h
  exact htable r hmem

/-- A word that has a row is on the wrong port when it is not the case that it is below 0x2000 exactly on the producer
port (rule R56, step 2). -/
theorem opRow_port_ne {p : Port} {w : Word} {r : OpRow} (h : opRow (Word.op w) = some r) :
    r.port ≠ p ↔ ¬(w.toNat < 0x2000 ↔ p = .producer) := by
  have hw := (opRow_exists_iff w).1 ⟨r, h⟩
  have hop : (Word.op w).toNat = 1 ↔ w.toNat < 0x2000 := by rw [Word.op_toNat]; omega
  rw [(opRow_port_unused h).1, ← hop]
  split_ifs with h1 <;> cases p <;> simp [h1]

/-- Rule R54's unused bits as numbers: 11:8 for PUSH, 9:0 for INIT and CTRL, 11:0 for the others (rule R56, step 3). -/
theorem opRow_unused_ne {w : Word} {r : OpRow} (h : opRow (Word.op w) = some r) :
    w &&& r.unused ≠ 0#16 ↔
      if w.toNat < 0x2000 then 0x1100 ≤ w.toNat
      else if 0x6000 ≤ w.toNat ∧ w.toNat < 0x8000 then w.toNat % 0x400 ≠ 0
      else w.toNat % 0x1000 ≠ 0 := by
  have hw := (opRow_exists_iff w).1 ⟨r, h⟩
  have h1 : (Word.op w).toNat = 1 ↔ w.toNat < 0x2000 := by rw [Word.op_toNat]; omega
  have h67 : (Word.op w).toNat = 6 ∨ (Word.op w).toNat = 7 ↔ 0x6000 ≤ w.toNat ∧ w.toNat < 0x8000 := by
    rw [Word.op_toNat]; omega
  simp only [(opRow_port_unused h).2, h1, h67]
  split_ifs
  · rw [Ne, and_0F00_eq_zero]; omega
  · rw [Ne, and_03FF_eq_zero]
  · rw [Ne, and_0FFF_eq_zero]

/-- The codes go up to 6 (rule R58). -/
theorem Rc.code_le (rc : Rc) : rc.code.toNat ≤ 6 := by cases rc <;> decide

end Sys2Proof

namespace Sys2Proof.Machine

/-! ## The encoding (rules R50 to R56, R61, R63) -/

/-- Settles O2: from left to right by `encode_build` on the row of the word's OP, from right to left by
`decode_encode`. -/
theorem decodeAgreesWithEncode : Obligations.DecodeAgreesWithEncode := by
  intro p w i
  constructor
  · intro h
    obtain ⟨r, hr, -, hu, rfl⟩ := decode_eq_instr.1 h
    exact ⟨decode_port h, encode_build hr hu⟩
  · rintro ⟨rfl, rfl⟩
    exact decode_encode i

/-- Settles O1: each word of the table is the encoding of its line's operation. -/
theorem assemblerWordsDecode : Obligations.AssemblerWordsDecode :=
  ⟨decode_push, decode_encode .pop, decode_encode .isempty, decode_encode .wait, decode_encode .get,
    decode_encode (.init .neither), decode_encode (.init .block), decode_encode (.init .noblock),
    decode_encode (.init .both), decode_encode (.ctrl .neither), decode_encode (.ctrl .block),
    decode_encode (.ctrl .noblock), decode_encode (.ctrl .both), decode_encode .close, decode_encode .status⟩

/-- Settles O3: the checks of the decoder on the row of the word's OP, each read as a number, and the answer by
`deliver_illegal_open`. -/
theorem illegalWordsAreAnsweredAndDropped : Obligations.IllegalWordsAreAnsweredAndDropped := by
  refine ⟨fun p w => ?_, fun s p w why rest hs hp hd => deliver_illegal_open (hs.setInputs rest) hd hp⟩
  obtain ⟨hreserved, hport, hunused⟩ := decode_eq_illegal (p := p) (w := w)
  have hbounds := opRow_exists_iff w
  rw [hreserved, hport, hunused]
  cases hr : opRow (Word.op w) with
  | none =>
    have hw : w.toNat < 0x1000 ∨ 0xA000 ≤ w.toNat := by
      simp only [hr, reduceCtorEq, exists_false, false_iff] at hbounds; omega
    refine ⟨iff_of_true rfl hw, iff_of_false nofun ?_, iff_of_false nofun ?_⟩ <;> omega
  | some r =>
    have hw := hbounds.1 ⟨r, hr⟩
    have hright : r.port = p ↔ (w.toNat < 0x2000 ↔ p = .producer) := not_iff_not.1 (opRow_port_ne hr)
    refine ⟨iff_of_false nofun (by omega), ?_, ?_⟩
    · simp only [Option.some.injEq, exists_eq_left', opRow_port_ne hr, hw, true_and]
    · simp only [Option.some.injEq, exists_eq_left', hright, opRow_unused_ne hr, hw, true_and]

/-! ## A step on a word (rules R56, R65) -/

/-- A table word that decodes is a 16-bit word that decodes on the port of its OP. -/
theorem decodeTableWord_eq_some {nbits w : Nat} {i : Instr} (h : decodeTableWord nbits w = some i) :
    decode (wordPort (BitVec.ofNat 16 (w % 2 ^ nbits))) (BitVec.ofNat 16 (w % 2 ^ nbits)) = .instr i := by
  unfold decodeTableWord at h
  split at h
  · split at h
    · cases h
    · cases h; assumption
  · cases h

/-- A word placed where it decodes is the next step's operation, a wait ended first for one of the consumer's. -/
theorem step_placeWord {w : Word} {i : Instr} (hd : decode (wordPort w) w = .instr i) (s : State) :
    step (placeWord s w) = exec i (if i.port = .producer then s else s.endWait) := by
  rw [decode_port hd, placeWord]
  cases hp : wordPort w with
  | producer => exact deliver_instr (hp ▸ hd) s
  | consumer => exact deliver_instr (hp ▸ hd) s.endWait

/-- Settles O4: `deliver_instr` and `deliver_rx` at the head of the schedule; the word the host places decodes on the
port of its operation, which is where `placeWord` puts it. -/
theorem stepRunsTheDecodedOperation : Obligations.StepRunsTheDecodedOperation :=
  ⟨fun _ _ _ _ _ hd => deliver_instr hd _,
    fun _ b _ => (deliver_rx b _).trans (deliver_instr (decode_push b) _).symm,
    fun s _ _ _ h => step_placeWord (decodeTableWord_eq_some h) s⟩

/-! ## Response words (rules R57 to R59) -/

/-- A transition answers nothing, or a response word with a byte only if it is OK (rules R57, R59). -/
theorem Taken.resp_cases {s t : State} {e : Event} (tk : Taken s e t) :
    t.resp = none ∨ ∃ p rc d, t.resp = some ⟨p, responseWord rc d⟩ ∧ (rc = .ok ∨ d = 0x00#8) := by
  cases tk with
  | popByte | getByte | recheckGet | isempty | status => exact .inr ⟨_, .ok, _, rfl, .inl rfl⟩
  | fallAsleep | irqx | reset | sleep | sleepAgain => exact .inl rfl
  | _ => exact .inr ⟨_, _, _, rfl, .inr rfl⟩

/-- Settles O5: every response is a response word (`Taken.resp_cases`), the number its code and its byte spell. -/
theorem responseWordsAreWellFormed : Obligations.ResponseWordsAreWellFormed := by
  intro s t r hst hr
  obtain ⟨-, ⟨-, rfl⟩ | ⟨e, rest, -, tk⟩⟩ := step_next hst
  · cases hr
  · obtain hnone | ⟨p, rc, d, hresp, hd⟩ := tk.resp_cases
    · cases hnone.symm.trans hr
    · cases hresp.symm.trans hr
      have hrc := Rc.code_le rc
      have hlt := d.isLt
      rw [isOk_responseWord, responseWord_toNat]
      refine ⟨by omega, by omega, fun hok => ?_⟩
      rw [hd.resolve_left (beq_eq_false_iff_ne.1 hok), BitVec.toNat_ofNat]; omega

/-! ## STATUS, INIT and CTRL -/

/-- CTRL[1:0] are BLOCK and RX_EN (rule R19). -/
theorem ctrl_mod_four (s : State) : s.ctrl.toNat % 4 = s.rxEn.toNat + 2 * s.block.toNat := by
  unfold State.rxEn State.block
  generalize s.ctrl = c
  revert c; decide

/-- The status byte spells EMPTY, FULL and CTRL[1:0] from bit 0 up (rule R60). -/
theorem statusByte_toNat (s : State) : s.statusByte.toNat =
    (if s.empty = true then 1 else 0) + (if s.full = true then 2 else 0) + 4 * (s.ctrl.toNat % 4) := by
  rw [ctrl_mod_four, State.statusByte]
  generalize s.empty = e, s.full = f, s.rxEn = x, s.block = k
  revert e f x k; decide

/-- Settles O27: STATUS answers the status byte (`exec_status`), whose number is `statusByte_toNat`. -/
theorem statusAnswersFlagsAndControl : Obligations.StatusAnswersFlagsAndControl := by
  intro s h
  refine ⟨_, exec_status h, ?_, ⟨fun _ => rfl, rfl, rfl, rfl⟩, ⟨rfl, rfl⟩, ⟨rfl, rfl⟩⟩
  rw [Answered, State.respond_resp, responseWord_ok, ← BitVec.ofNat_toNat, statusByte_toNat]
  simp only [State.empty, State.full, beq_iff_eq]

/-- Equal indices in range: EMPTY, not FULL, COUNT 0 (rules R22 to R25). -/
theorem flags_of_head_eq_tail {s : State} (h : s.Ready) (he : s.head = s.tail) :
    s.empty = true ∧ s.full = false ∧ s.count = 0 := by
  have hempty : s.empty = true := beq_iff_eq.2 he
  exact ⟨hempty, full_false_of_empty h hempty, (empty_iff_count h).1 hempty⟩

/-- Settles O42: INIT in its three forms is `exec_init`; CTRL's bits are those of the two writes, and the flags are those
of equal indices. -/
theorem initEmptiesAndEnablesReceive : Obligations.InitEmptiesAndEnablesReceive := by
  intro s blk b h hb
  have hblk : initBlock s.cfg blk = some b := by
    rcases hb with ⟨rfl, rfl⟩ | ⟨rfl, rfl⟩ | ⟨rfl, rfl⟩ <;> rfl
  refine ⟨_, exec_init h hblk, rfl, rfl, rfl, ctrlEnableRx_rxEn _, ?_, ?_, fun _ => rfl, ⟨rfl, rfl⟩, ⟨rfl, rfl⟩, ?_⟩
  · exact (ctrlEnableRx_block _).trans (ctrlSetBlock_block _ _)
  · exact (ctrlEnableRx_reserved _).trans (ctrlSetBlock_reserved _ _)
  · have hreset := (Config.wf_bounds h.config).2
    exact flags_of_head_eq_tail ⟨h.config, hreset, hreset⟩ rfl

/-- Settles O43: CTRL in its three forms is `exec_ctrl`, which writes BLOCK alone. -/
theorem ctrlSetsBlockAlone : Obligations.CtrlSetsBlockAlone := by
  intro s blk b h hb
  have hblk : ctrlBlock s.block blk = some b := by
    rcases hb with ⟨rfl, rfl⟩ | ⟨rfl, rfl⟩ | ⟨rfl, rfl⟩ <;> rfl
  exact ⟨_, exec_ctrl h hblk, rfl, ctrlSetBlock_block _ _, ctrlSetBlock_others _ _, rfl, rfl, fun _ => rfl,
    ⟨rfl, rfl⟩, ⟨rfl, rfl⟩⟩

end Sys2Proof.Machine
end

section
/-! PROOFS. The answers of PUSH that store nothing, and that it always answers: the statements of `40_producer.md` beside
the accepted PUSH. -/

namespace Sys2Proof.Machine

/-- Settles O19: with RX_EN = 0 PUSH is the RX_OFF response alone (`exec_push`). -/
theorem pushIsLostWhileReceiveIsOff : Obligations.PushIsLostWhileReceiveIsOff := by
  intro s b h hx
  refine ⟨s.respond .producer .rxOff 0x00#8, ?_, rfl, ⟨fun _ => rfl, rfl, rfl, rfl⟩, ⟨rfl, rfl⟩, ⟨rfl, rfl⟩⟩
  rw [exec_push h, if_pos hx]

/-- Settles O20: on a full buffer PUSH is the DROPPED response and a wake event (`exec_push`). -/
theorem pushIsDroppedWhenFull : Obligations.PushIsDroppedWhenFull := by
  intro s b h hx hf
  refine ⟨(s.respond .producer .dropped 0x00#8).wake, ?_, rfl, ⟨fun _ => rfl, rfl, rfl, rfl⟩,
    ⟨s.sync.wake_eq, rfl⟩, ⟨rfl, rfl⟩⟩
  rw [exec_push h, if_neg (ne_false_of_eq_true hx), if_pos hf]

/-- Settles O22: a PUSH is lost, dropped or stored, by RX_EN and FULL alone, and each of the three answers on the
producer port; SYNC plays no part. -/
theorem pushNeverWaits : Obligations.PushNeverWaits := by
  intro s b h
  cases hx : s.rxEn with
  | false =>
    obtain ⟨t, ht, hresp, -⟩ := pushIsLostWhileReceiveIsOff s b h hx
    exact ⟨t, _, ht, hresp⟩
  | true =>
    cases hf : s.full with
    | true =>
      obtain ⟨t, ht, hresp, -⟩ := pushIsDroppedWhenFull s b h hx hf
      exact ⟨t, _, ht, hresp⟩
    | false =>
      obtain ⟨t, ht, hresp, -⟩ := pushStoresAtTheNewHead s b h hx hf
      exact ⟨t, _, ht, hresp⟩

end Sys2Proof.Machine
end

section
/-! PROOFS. POP on an empty buffer and ISEMPTY: the statements of `41_consumer.md` beside POP on data and STATUS. -/

namespace Sys2Proof.Machine

/-- Settles O24: with EMPTY, POP is the EMPTY response alone (`exec_pop`). -/
theorem popOfAnEmptyBufferAnswersEmpty : Obligations.PopOfAnEmptyBufferAnswersEmpty := by
  intro s h he
  refine ⟨s.respond .consumer .empty 0x00#8, ?_, rfl, ⟨fun _ => rfl, rfl, rfl, rfl⟩, ⟨rfl, rfl⟩, ⟨rfl, rfl⟩⟩
  rw [exec_pop h, if_pos he]

/-- The byte ISEMPTY returns, as a word, is 1 when HEAD = TAIL and 0 otherwise (rules R22, R73). -/
theorem emptyByte_setWidth (s : State) :
    s.emptyByte.setWidth 16 = if s.head = s.tail then 0x0001#16 else 0x0000#16 := by
  rw [State.emptyByte, State.empty]
  by_cases he : s.head = s.tail
  · rw [if_pos he, beq_iff_eq.2 he]; rfl
  · rw [if_neg he, beq_eq_false_iff_ne.2 he]; rfl

/-- Settles O26: ISEMPTY answers the flag's byte and does nothing else (`exec_isempty`). -/
theorem isemptyAnswersTheFlag : Obligations.IsemptyAnswersTheFlag := by
  intro s h
  refine ⟨_, exec_isempty h, ?_, ⟨fun _ => rfl, rfl, rfl, rfl⟩, ⟨rfl, rfl⟩, ⟨rfl, rfl⟩⟩
  rw [Answered, State.respond_resp, responseWord_ok, emptyByte_setWidth]

end Sys2Proof.Machine
end

section
/-! PROOFS. The synchronizer: what its check, its completion and its two steps answer, what any move does to a wait in
progress, said once (`WaitMove`), and the statements of `42_sync.md` that follow, single steps first and then runs. -/

namespace Sys2Proof.Machine

/-! ## The check and the completion (rules R77, R84, R86) -/

theorem check_wouldBlock (op : Pend) {s : State} (he : s.empty = true) (hk : s.block = false) :
    check op s = .next (s.respond .consumer .wouldBlock 0x00#8) := by
  rw [check, if_neg (ne_false_of_eq_true he), if_pos hk]

theorem check_sleeps (op : Pend) {s : State} (he : s.empty = true) (hk : s.block = true) :
    check op s = .next (((s.setPend op).setSync (sleepState s.cfg)).silent) := by
  rw [check, if_neg (ne_false_of_eq_true he), if_neg (ne_false_of_eq_true hk)]

theorem complete_get {s : State} {b : Byte} (h : s.Ready) (he : s.empty = false)
    (hb : Memory.read s.data (nextIndex s.cfg.capacity s.tail) = some b) :
    complete .get s = .next (s.advanced.endWait.respond .consumer .ok b) := by
  rw [complete, takeByte_some h he hb]; rfl

/-- GET on a buffer that holds data completes. -/
theorem exec_get_data {s : State} {b : Byte} (h : s.Quiescent) (he : s.empty = false)
    (hb : Memory.read s.data (nextIndex s.cfg.capacity s.tail) = some b) :
    exec .get s = .next (s.advanced.endWait.respond .consumer .ok b) := by
  rw [exec_get h, check, if_pos he, complete_get h.toReady he hb]

/-- Popping the oldest byte leaves room, and an empty buffer exactly when it was the only byte (rules R22 to R24). -/
theorem flags_of_advanced {s : State} (h : s.Ready) (he : s.empty = false) :
    s.advanced.full = false ∧ (s.advanced.empty = true ↔ s.count = 1) ∧ s.advanced.count + 1 = s.count := by
  obtain ⟨hr, hcount, -⟩ := pop_contents (t := s.advanced) h he rfl rfl rfl rfl
  have hlt : s.count < s.advanced.cfg.capacity - 1 := count_lt h
  rw [full_false_iff_count hr, empty_iff_count hr]
  omega

/-- The answer of a completed GET is its byte, zero-extended (rules R57, R86). -/
theorem answered_ok (s : State) (b : Byte) : Answered (s.respond .consumer .ok b) .consumer (b.setWidth 16) :=
  congrArg (fun w => some (Response.mk .consumer w)) (responseWord_ok b)

/-- Settles O30: the three cases of the check (`exec_wait_data`, `check_wouldBlock`, `check_sleeps`). -/
theorem waitChecksThenAnswersOrSleeps : Obligations.WaitChecksThenAnswersOrSleeps := by
  refine fun s h => ⟨fun he => ?_, fun he hk => ?_, fun he hk => ?_⟩
  · exact ⟨_, exec_wait_data h he, rfl, ⟨fun _ => rfl, rfl, rfl, rfl⟩, rfl, rfl, ⟨rfl, rfl⟩⟩
  · exact ⟨_, (exec_wait h).trans (check_wouldBlock .wait he hk), rfl, ⟨fun _ => rfl, rfl, rfl, rfl⟩, ⟨rfl, rfl⟩,
      ⟨rfl, rfl⟩⟩
  · exact ⟨_, (exec_wait h).trans (check_sleeps .wait he hk), rfl, ⟨fun _ => rfl, rfl, rfl, rfl⟩, rfl, rfl, ⟨rfl, rfl⟩⟩

/-- Settles O31: the same three cases, GET's completion being a pop (`exec_get_data`). -/
theorem getChecksThenReturnsOrSleeps : Obligations.GetChecksThenReturnsOrSleeps := by
  refine fun s h => ⟨fun b he hb => ?_, fun he hk => ?_, fun he hk => ?_⟩
  · exact ⟨_, exec_get_data h he hb, answered_ok _ b, rfl, rfl, fun _ => rfl, rfl, rfl, rfl, ⟨rfl, rfl⟩,
      flags_of_advanced h.toReady he⟩
  · exact ⟨_, (exec_get h).trans (check_wouldBlock .get he hk), rfl, ⟨fun _ => rfl, rfl, rfl, rfl⟩, ⟨rfl, rfl⟩,
      ⟨rfl, rfl⟩⟩
  · exact ⟨_, (exec_get h).trans (check_sleeps .get he hk), rfl, ⟨fun _ => rfl, rfl, rfl, rfl⟩, rfl, rfl, ⟨rfl, rfl⟩⟩

/-! ## The synchronizer's own steps and IRQX (rules R79, R81, R82) -/

theorem deliver_recheck_data {s : State} (h : s.Ready) (hs : s.sync = .woken) (he : s.empty = false) :
    deliver .recheck s = complete s.pend s := by
  rw [deliver_recheck h, if_pos hs, if_pos he]

theorem deliver_recheck_empty {s : State} (h : s.Ready) (hs : s.sync = .woken) (he : s.empty = true) :
    deliver .recheck s = .next ((s.setSync (sleepState s.cfg)).silent) := by
  rw [deliver_recheck h, if_pos hs, if_neg (ne_false_of_eq_true he)]

/-- Settles O32: (sleep) is admitted in PRESLEEP and writes SYNC alone (`deliver_sleep`). -/
theorem sleepEntryIsUnconditional : Obligations.SleepEntryIsUnconditional := fun _ rest h hs =>
  ⟨_, (deliver_sleep (h.setInputs rest)).trans (if_pos hs), rfl, rfl, rfl, ⟨fun _ => rfl, rfl, rfl, rfl⟩, rfl, rfl⟩

/-- Settles O33: (recheck) is not admitted outside WOKEN, and in it either completes PEND or sleeps again. -/
theorem recheckCompletesOrSleepsAgain : Obligations.RecheckCompletesOrSleepsAgain := by
  intro s rest h
  have hr := h.setInputs rest
  refine ⟨fun hs => ?_, fun hs he hp => ?_, fun b hs he hp hb => ?_, fun hs he => ?_⟩
  · exact deliver_of_not_admitted hr (e := .recheck) hs
  · refine ⟨(s.setInputs rest).endWait.respond .consumer .ok 0x00#8, (deliver_recheck_data hr hs he).trans ?_, rfl,
      ⟨fun _ => rfl, rfl, rfl, rfl⟩, rfl, rfl, rfl, rfl⟩
    rw [State.setInputs_pend, hp]; rfl
  · refine ⟨(s.setInputs rest).advanced.endWait.respond .consumer .ok b, (deliver_recheck_data hr hs he).trans ?_,
      answered_ok _ b, rfl, rfl, fun _ => rfl, rfl, rfl, rfl, rfl, rfl⟩
    rw [State.setInputs_pend, hp]
    exact complete_get hr he hb
  · exact ⟨_, deliver_recheck_empty hr hs he, rfl, ⟨fun _ => rfl, rfl, rfl, rfl⟩, rfl, rfl, rfl, rfl⟩

/-- Settles O34: IRQX is the wake event alone (`deliver_irqx`). -/
theorem foreignInterruptOnlyWakes : Obligations.ForeignInterruptOnlyWakes := fun s rest h =>
  ⟨_, deliver_irqx (h.setInputs rest), rfl, ⟨fun _ => rfl, rfl, rfl, rfl⟩, ⟨s.sync.wake_eq, rfl⟩, rfl, rfl⟩

/-! ## Entering SLEEP, and which moves are answered -/

theorem sleepState_eq_sleep {c : Config} (h : sleepState c = .sleep) : c.atomicSleep = true := by
  unfold sleepState at h
  split at h
  · assumption
  · cases h

/-- Only three transitions write SLEEP to SYNC (rules R77 to R79, R109). -/
theorem Taken.enters_sleep {s t : State} {e : Event} (tk : Taken s e t) (hs : s.sync ≠ .sleep) (ht : t.sync = .sleep) :
    (e = .sleep ∧ s.sync = .presleep) ∨
    ((e.issues .wait ∨ e.issues .get) ∧ s.sync = .run ∧ s.empty = true ∧ s.block = true ∧ s.cfg.atomicSleep = true) ∨
    (e = .recheck ∧ s.sync = .woken ∧ s.empty = true ∧ s.cfg.atomicSleep = true) := by
  cases tk with
  | sleep hp => exact .inl ⟨rfl, hp⟩
  | fallAsleep w i op hi hd hr he hk =>
    refine .inr (.inl ⟨?_, hr, he, hk, sleepState_eq_sleep ht⟩)
    rcases hi with ⟨rfl, -⟩ | ⟨rfl, -⟩
    · exact .inl (.of_decode hd)
    · exact .inr (.of_decode hd)
  | sleepAgain hw he => exact .inr (.inr ⟨rfl, hw, he, sleepState_eq_sleep ht⟩)
  | dropped | stored | irqx => exact absurd ht s.sync.wake_ne_sleep
  | waitOk | getByte | recheckWait | recheckGet | reset => cases ht
  | _ => exact absurd ht hs

/-- Settles O36: the transitions that write SLEEP, read off `Taken`. -/
theorem sleepIsEnteredOnlyByTheSynchronizer : Obligations.SleepIsEnteredOnlyByTheSynchronizer :=
  fun _ _ _ _ hs hst ht => (step_facing_next hst).2.enters_sleep hs ht

/-- PUSH is issued by an arriving byte or by a word on the producer port, so by no move of the consumer (rules R55,
R65). -/
theorem Event.issues.of_push {e : Event} {b : Byte} (h : e.issues (.push b)) :
    e.ofConsumer = false ∧ ((∃ b, e = .rx b) ∨ ∃ w, e = .word .producer w) := by
  obtain ⟨p, w, rfl, hd⟩ | ⟨b', rfl, -⟩ := h
  · obtain rfl : Port.producer = p := decode_port hd
    exact ⟨rfl, .inr ⟨w, rfl⟩⟩
  · exact ⟨rfl, .inl ⟨b', rfl⟩⟩

/-- The ports on which a transition answers: the consumer's for a consumer move that ends in RUN, the producer's for a
byte or a producer word, none for the others. -/
theorem Taken.answers_iff {s t : State} {e : Event} (tk : Taken s e t) :
    ((∃ w, t.resp = some ⟨.consumer, w⟩) ↔ (e.ofConsumer = true ∧ t.sync = .run)) ∧
    ((∃ w, t.resp = some ⟨.producer, w⟩) ↔ ((∃ b, e = .rx b) ∨ ∃ w, e = .word .producer w)) := by
  cases tk with
  | illegal p w why hd hp =>
    cases p with
    | producer => exact ⟨iff_of_false nofun nofun, iff_of_true ⟨_, rfl⟩ (.inr ⟨w, rfl⟩)⟩
    | consumer => exact ⟨iff_of_true ⟨_, rfl⟩ ⟨rfl, hp rfl⟩, iff_of_false nofun nofun⟩
  | rxOff _ b he | dropped _ b he | stored _ b he =>
    obtain ⟨hc, hp⟩ := he.of_push
    exact ⟨iff_of_false nofun (by simp [hc]), iff_of_true ⟨_, rfl⟩ hp⟩
  | popEmpty _ _ hr | popByte _ _ hr | isempty _ _ hr | status _ _ hr | wouldBlock _ _ _ _ hr | init _ _ _ hr
  | ctrl _ _ _ hr | invalid _ _ _ _ hr | close _ _ hr =>
    exact ⟨iff_of_true ⟨_, rfl⟩ ⟨rfl, hr⟩, iff_of_false nofun nofun⟩
  | waitOk | getByte | recheckWait | recheckGet =>
    exact ⟨iff_of_true ⟨_, rfl⟩ ⟨rfl, rfl⟩, iff_of_false nofun nofun⟩
  | fallAsleep | sleepAgain =>
    exact ⟨iff_of_false nofun fun ⟨_, hrun⟩ => sleepState_ne_run _ hrun, iff_of_false nofun nofun⟩
  | irqx | reset | sleep => exact ⟨iff_of_false nofun nofun, iff_of_false nofun nofun⟩

/-- Settles O37: the port of each transition's answer, read off `Taken`. -/
theorem consumerIsAnsweredWhenItsOperationEnds : Obligations.ConsumerIsAnsweredWhenItsOperationEnds :=
  fun _ _ _ _ _ hst => (step_facing_next hst).2.answers_iff

/-! ## PUSH with RX_EN = 1 (rules R66 to R68, R89) -/

/-- What a PUSH with RX_EN = 1 leaves, stored or dropped: data in the buffer, and a wake event. -/
structure PushHeard (s t : State) : Prop where
  empty : t.empty = false
  sync : t.sync = s.sync.wake
  pend : t.pend = s.pend
  ctrl : t.ctrl = s.ctrl
  resp : ∃ w, t.resp = some ⟨.producer, w⟩

theorem empty_false_of_full {s : State} (h : s.Ready) (hf : s.full = true) : s.empty = false :=
  eq_false_of_ne_true fun he => absurd ((full_false_of_empty h he).symm.trans hf) nofun

theorem PushHeard.dropped {s : State} (h : s.Ready) (hf : s.full = true) :
    PushHeard s ((s.respond .producer .dropped 0x00#8).wake) :=
  have he : s.empty = false := empty_false_of_full h hf
  ⟨he, rfl, rfl, rfl, _, rfl⟩

/-- HEAD moves to the slot that FULL compared with TAIL, so what was not FULL is now not EMPTY. -/
theorem PushHeard.stored {s : State} (hf : s.full = false) (b : Byte) :
    PushHeard s (((s.stored b).respond .producer .ok 0x00#8).wake) := ⟨hf, rfl, rfl, rfl, _, rfl⟩

theorem exec_push_heard {s : State} (h : s.Ready) (hx : s.rxEn = true) (b : Byte) :
    ∃ t, exec (.push b) s = .next t ∧ PushHeard s t := by
  rw [exec_push h, if_neg (ne_false_of_eq_true hx)]
  cases hf : s.full with
  | true => exact ⟨_, rfl, .dropped h hf⟩
  | false => exact ⟨_, rfl, .stored hf b⟩

/-- A move that issues an operation is that operation. -/
theorem deliver_issues {e : Event} {i : Instr} (h : e.issues i) (s : State) : deliver e s = exec i s := by
  obtain ⟨p, w, rfl, hd⟩ | ⟨b, rfl, rfl⟩ := h
  · exact deliver_instr hd s
  · exact deliver_rx b s

/-! ## A wait in progress (rules R76 to R83) -/

/-- What a move other than a reset, or none, does while SYNC is not RUN. -/
inductive WaitMove (s : State) : Option Event → State → Prop where
  | idle : WaitMove s none s.silent
  | unheard (e : Event) (rc : Rc) (hc : e.ofConsumer = false) (hn : s.rxEn = true → e.pushed = none) :
      WaitMove s (some e) (s.respond .producer rc 0x00#8)
  | push (e : Event) (b : Byte) (t : State) (he : e.issues (.push b)) (hx : s.rxEn = true) (ht : PushHeard s t) :
      WaitMove s (some e) t
  | irqx : WaitMove s (some .irqx) s.silent.wake
  | sleep (hp : s.sync = .presleep) : WaitMove s (some .sleep) ((s.setSync .sleep).silent)
  | sleepAgain (hw : s.sync = .woken) (he : s.empty = true) :
      WaitMove s (some .recheck) ((s.setSync (sleepState s.cfg)).silent)
  | answered (t : State) (hw : s.sync = .woken) (hd : s.empty = false) (ht : t.sync = .run) (w : Word)
      (hr : t.resp = some ⟨.consumer, w⟩) : WaitMove s (some .recheck) t

section Wait
variable {s t : State} {e : Event} {o : Option Event}

theorem Taken.waitMove (tk : Taken s e t) (h : s.Ready) (hs : s.sync ≠ .run) (he : e ≠ .reset) :
    WaitMove s (some e) t := by
  cases tk with
  | illegal p w why hd hp =>
    cases p with
    | producer => exact .unheard _ _ rfl fun _ => by simp [Event.pushed, hd]
    | consumer => exact absurd (hp rfl) hs
  | rxOff _ b hb hx => exact .unheard _ _ hb.of_push.1 fun hx' => absurd (hx.symm.trans hx') nofun
  | dropped _ b hb hx hf => exact .push _ b _ hb hx (.dropped h hf)
  | stored _ b hb hx hf => exact .push _ b _ hb hx (.stored hf b)
  | irqx => exact .irqx
  | reset => exact absurd rfl he
  | sleep hp => exact .sleep hp
  | recheckWait hw hd | recheckGet hw hd => exact .answered _ hw hd rfl _ rfl
  | sleepAgain hw hd => exact .sleepAgain hw hd
  | popEmpty _ _ hr | popByte _ _ hr | isempty _ _ hr | status _ _ hr | waitOk _ _ hr | getByte _ _ hr
  | wouldBlock _ _ _ _ hr | fallAsleep _ _ _ _ _ hr | init _ _ _ hr | ctrl _ _ _ hr | invalid _ _ _ _ hr
  | close _ _ hr => exact absurd hr hs

/-- No step changes the parameters, and each takes one move off the schedule. -/
theorem step_surroundings (hst : step s = .next t) : t.cfg = s.cfg ∧ t.inputs = s.inputs.tail := by
  obtain ⟨-, ⟨hin, rfl⟩ | ⟨e, rest, hin, tk⟩⟩ := step_next hst
  · exact ⟨rfl, by simp [hin]⟩
  · obtain ⟨hcfg, hrest⟩ := tk.sameSurroundings
    exact ⟨hcfg, by rw [hrest, hin]; rfl⟩

theorem step_waitMove (hst : step s = .next t) (hs : s.sync ≠ .run) (hreset : s.inputs.head? ≠ some .reset) :
    WaitMove (s.setInputs s.inputs.tail) s.inputs.head? t := by
  obtain ⟨hr, ⟨hin, rfl⟩ | ⟨e, rest, hin, tk⟩⟩ := step_next hst
  · have hsilent : s.silent = (s.setInputs []).silent := by rw [← hin]; rfl
    rw [hin, hsilent]
    exact .idle
  · rw [hin] at hreset ⊢
    exact tk.waitMove (hr.setInputs rest) hs fun he => hreset (congrArg some he)

/-- The wait has not ended: the same operation waits, unanswered. -/
structure StillWaits (s t : State) : Prop where
  sync : t.sync ≠ .run
  pend : t.pend = s.pend
  ctrl : t.ctrl = s.ctrl
  unanswered : ∀ w, t.resp ≠ some ⟨.consumer, w⟩

/-- A wait goes on, unless the re-check found data and answered. -/
theorem WaitMove.answered_or_stillWaits (mv : WaitMove s o t) (hs : s.sync ≠ .run) :
    (s.empty = false ∧ t.sync = .run ∧ ∃ w, t.resp = some ⟨.consumer, w⟩) ∨ StillWaits s t := by
  have hwake : s.sync.wake ≠ .run := mt s.sync.wake_eq_run.1 hs
  cases mv with
  | idle | unheard => exact .inr ⟨hs, rfl, rfl, nofun⟩
  | push _ _ _ _ _ heard =>
    obtain ⟨w, hw⟩ := heard.resp
    exact .inr ⟨heard.sync ▸ hwake, heard.pend, heard.ctrl, by rw [hw]; nofun⟩
  | irqx => exact .inr ⟨hwake, rfl, rfl, nofun⟩
  | sleep => exact .inr ⟨nofun, rfl, rfl, nofun⟩
  | sleepAgain => exact .inr ⟨sleepState_ne_run _, rfl, rfl, nofun⟩
  | answered _ _ hd ht w hr => exact .inl ⟨hd, ht, w, hr⟩

/-- While a wait goes on, EMPTY changes only by a PUSH, to false. -/
theorem WaitMove.empty_eq (mv : WaitMove s o t) (ht : t.sync ≠ .run) :
    t.empty = s.empty ∨ (t.empty = false ∧ ∃ e b, o = some e ∧ e.pushed = some b) := by
  cases mv with
  | push e b _ he _ heard => exact .inr ⟨heard.empty, e, b, rfl, he.pushed.2⟩
  | answered _ _ _ hrun => exact absurd hrun ht
  | _ => exact .inl rfl

theorem WaitMove.pushHeard (mv : WaitMove s (some e) t) (hx : s.rxEn = true) {b : Byte} (hp : e.pushed = some b) :
    PushHeard s t := by
  cases mv with
  | unheard _ _ _ hn => cases (hn hx).symm.trans hp
  | push _ _ _ _ _ heard => exact heard
  | _ => cases hp

/-- A re-check that finds data answers the consumer. -/
theorem WaitMove.of_recheck (mv : WaitMove s (some .recheck) t) (hd : s.empty = false) :
    t.sync = .run ∧ ∃ w, t.resp = some ⟨.consumer, w⟩ := by
  cases mv with
  | unheard _ _ hc => cases hc
  | push _ _ _ he => cases he.of_push.1
  | sleepAgain _ he => cases hd.symm.trans he
  | answered _ _ _ ht w hr => exact ⟨ht, w, hr⟩

theorem WaitMove.enters_sleep (mv : WaitMove s (some .sleep) t) : t.sync = .sleep := by
  cases mv with
  | unheard _ _ hc => cases hc
  | push _ _ _ he => cases he.of_push.1
  | sleep => rfl

/-- From SLEEP a wait goes on asleep, unless a wake event came (rule R80). -/
theorem WaitMove.of_sleep (mv : WaitMove s o t) (hs : s.sync = .sleep) :
    t.sync = .sleep ∨ (t.sync = .woken ∧ ∃ e, o = some e ∧ e.wakes s) := by
  cases mv with
  | idle | unheard => exact .inl hs
  | push e b _ he hx heard => exact .inr ⟨heard.sync.trans (congrArg Sync.wake hs), e, rfl, .inr ⟨hx, b, he⟩⟩
  | irqx => exact .inr ⟨congrArg Sync.wake hs, _, rfl, .inl rfl⟩
  | sleep h | sleepAgain h | answered _ h => cases hs.symm.trans h

/-- Outside SLEEP a wake event is not latched, so SYNC changes only by the consumer's own steps (rule R81). -/
theorem WaitMove.sync_eq (mv : WaitMove s o t) (hs : s.sync ≠ .sleep) (h1 : o = some .sleep → s.sync ≠ .presleep)
    (h2 : o = some .recheck → s.sync ≠ .woken) : t.sync = s.sync := by
  have hwake : s.sync.wake = s.sync := s.sync.wake_eq.trans (if_neg hs)
  cases mv with
  | idle | unheard => rfl
  | push _ _ _ _ _ heard => exact heard.sync.trans hwake
  | irqx => exact hwake
  | sleep hp => exact absurd hp (h1 rfl)
  | sleepAgain hw | answered _ hw => exact absurd hw (h2 rfl)

/-- The consumer's own step stays enabled until it is taken. -/
theorem WaitMove.keeps_enabled (mv : WaitMove s o t) {c : Event} (hc : c = .sleep ∨ c = .recheck) (hs : c.Enabled s)
    (ho : o ≠ some c) : c.Enabled t := by
  obtain rfl | rfl := hc
  · have hp : s.sync = .presleep := hs
    exact (mv.sync_eq (by rw [hp]; nofun) (fun h => absurd h ho) fun _ => by rw [hp]; nofun).trans hp
  · have hw : s.sync = .woken := hs
    exact (mv.sync_eq (by rw [hw]; nofun) (fun _ => by rw [hw]; nofun) fun h => absurd h ho).trans hw

/-- In SLEEP none of the consumer's moves is admitted (rule R80). -/
theorem Event.not_admitted_of_sleep (hs : s.sync = .sleep) (hc : e.ofConsumer = true) : ¬e.Admitted s := by
  cases e with
  | word p w =>
    cases p with
    | producer => cases hc
    | consumer => exact fun ha => nomatch hs.symm.trans (ha rfl)
  | sleep | recheck => exact fun ha => nomatch hs.symm.trans ha
  | _ => cases hc

end Wait

/-- Settles O35: the consumer's moves are not admitted in SLEEP, and `WaitMove.of_sleep` says which others lift it. -/
theorem onlyWakeEventsAndResetLiftTheSleep : Obligations.OnlyWakeEventsAndResetLiftTheSleep := by
  intro s e rest h hs
  have hr := h.setInputs rest
  refine ⟨fun hc => ⟨e.refusal, deliver_of_not_admitted hr (Event.not_admitted_of_sleep hs hc)⟩, fun t hst ht => ?_,
    ?_, ?_⟩
  · by_cases he : e = .reset
    · subst he
      cases (deliver_reset hr).symm.trans hst
      exact .inr ⟨rfl, rfl⟩
    · have mv := (step_facing_next hst).2.waitMove hr (fun hrun => nomatch hs.symm.trans hrun) he
      obtain hsleep | ⟨hwoken, _, heq, hw⟩ := mv.of_sleep hs
      · exact absurd hsleep ht
      · cases heq
        exact .inl ⟨hw, hwoken⟩
  · rintro (rfl | ⟨hx, b, hb⟩)
    · exact ⟨_, deliver_irqx hr, congrArg Sync.wake hs⟩
    · obtain ⟨t, ht, heard⟩ := exec_push_heard hr hx b
      exact ⟨t, (deliver_issues hb _).trans ht, heard.sync.trans (congrArg Sync.wake hs)⟩
  · rintro rfl
    exact ⟨_, deliver_reset hr, rfl⟩

/-! ## Spurious wakes (rule R89) -/

/-- The consumer sleeps on an empty buffer. -/
structure State.SleepsOnEmpty (s : State) : Prop extends s.Ready where
  sync : s.sync = .sleep
  empty : s.empty = true

section Rounds
variable {s : State}

theorem State.SleepsOnEmpty.silent (h : s.SleepsOnEmpty) : s.silent.SleepsOnEmpty :=
  ⟨h.toReady.congr rfl rfl rfl, h.sync, h.empty⟩

/-- IRQX and (recheck) lead back to the state a wait goes on in. -/
theorem run_irqx_recheck (h : s.SleepsOnEmpty) (rest : List Event) (k : Nat) :
    Host.Core.run Sys2Proof.core (k + 2) (s.facing .irqx (.recheck :: rest)) =
      Host.Core.run Sys2Proof.core k (((s.setInputs rest).setSync (sleepState s.cfg)).silent) := by
  have hirqx : step (s.facing .irqx (.recheck :: rest)) = .next (s.setInputs (.recheck :: rest)).silent.wake :=
    deliver_irqx (h.toReady.setInputs _)
  have hrecheck : step (s.setInputs (.recheck :: rest)).silent.wake =
      .next (((s.setInputs rest).setSync (sleepState s.cfg)).silent) :=
    deliver_recheck_empty (s := (s.setInputs rest).silent.wake) (h.toReady.congr rfl rfl rfl)
      (congrArg Sync.wake h.sync) h.empty
  exact (run_succ_of_step hirqx (k + 1)).trans (run_succ_of_step hrecheck k)

/-- The state after a whole round: only the response of the last move is forgotten. -/
theorem State.SleepsOnEmpty.setSync_sleep (h : s.SleepsOnEmpty) (rest : List Event) :
    ((s.setInputs rest).setSync .sleep).silent = s.silent.setInputs rest := by
  rw [← h.sync]; rfl

theorem run_round_atomic (h : s.SleepsOnEmpty) (ha : s.cfg.atomicSleep = true) (rest : List Event) (k : Nat) :
    Host.Core.run Sys2Proof.core (k + 2) (s.setInputs ([.irqx, .recheck] ++ rest)) =
      Host.Core.run Sys2Proof.core k (s.silent.setInputs rest) := by
  have hround := run_irqx_recheck h rest k
  rwa [sleepState, if_pos ha, h.setSync_sleep] at hround

theorem run_round_split (h : s.SleepsOnEmpty) (ha : s.cfg.atomicSleep = false) (rest : List Event) (k : Nat) :
    Host.Core.run Sys2Proof.core (k + 3) (s.setInputs ([.irqx, .recheck, .sleep] ++ rest)) =
      Host.Core.run Sys2Proof.core k (s.silent.setInputs rest) := by
  have hround := run_irqx_recheck h (.sleep :: rest) (k + 1)
  rw [sleepState, if_neg (ne_true_of_eq_false ha)] at hround
  have hsleep : step (((s.setInputs (.sleep :: rest)).setSync .presleep).silent) =
      .next (((s.setInputs rest).setSync .sleep).silent) :=
    (deliver_sleep (s := ((s.setInputs rest).setSync .presleep).silent) (h.toReady.congr rfl rfl rfl)).trans
      (if_pos rfl)
  rw [h.setSync_sleep] at hsleep
  exact hround.trans (run_succ_of_step hsleep k)

/-- Rounds that each lead back to the same state do so any number of times. -/
theorem run_rounds {a : Bool} {round : List Event}
    (hround : ∀ {s : State}, s.SleepsOnEmpty → s.cfg.atomicSleep = a → ∀ rest k,
      Host.Core.run Sys2Proof.core (k + round.length) (s.setInputs (round ++ rest)) =
        Host.Core.run Sys2Proof.core k (s.silent.setInputs rest))
    (h : s.SleepsOnEmpty) (ha : s.cfg.atomicSleep = a) (n : Nat) (rest : List Event) :
    ∃ r, Host.Core.run Sys2Proof.core (round.length * n)
      (s.setInputs ((List.replicate n round).flatten ++ rest)) = .next ((s.setInputs rest).setResp r) := by
  induction n generalizing s with
  | zero => exact ⟨s.resp, rfl⟩
  | succ n ih =>
    obtain ⟨r, hr⟩ := ih h.silent ha
    rw [List.replicate_succ, List.flatten_cons, List.append_assoc, Nat.mul_succ, hround h ha]
    exact ⟨r, hr⟩

end Rounds

/-- Settles O38: `exec_push_heard` for PUSH; one round is `run_irqx_recheck`, and with (sleep) where check and sleep are
two steps it leads back to the state it began in. -/
theorem spuriousWakesReturnToSleep : Obligations.SpuriousWakesReturnToSleep := by
  refine ⟨fun s t b h hx hst => ?_, fun s rest h hs he => ?_, fun s n rest h hs he ha => ?_,
    fun s n rest h hs he ha => ?_⟩
  · obtain ⟨u, hu, heard⟩ := exec_push_heard h hx b
    cases hu.symm.trans hst
    exact heard.empty
  · exact ⟨_, run_irqx_recheck ⟨h, hs, he⟩ rest 0, rfl, ⟨fun _ => rfl, rfl, rfl, rfl⟩, rfl, rfl, rfl⟩
  · obtain ⟨r, hr⟩ := run_rounds (round := [.irqx, .recheck]) run_round_atomic ⟨h, hs, he⟩ ha n rest
    exact ⟨_, hr, ⟨fun _ => rfl, rfl, rfl, rfl⟩, ⟨rfl, rfl⟩, rfl⟩
  · obtain ⟨r, hr⟩ := run_rounds (round := [.irqx, .recheck, .sleep]) run_round_split ⟨h, hs, he⟩ ha n rest
    exact ⟨_, hr, ⟨fun _ => rfl, rfl, rfl, rfl⟩, ⟨rfl, rfl⟩, rfl⟩

/-! ## No timeout (rules R88, R123) -/

/-- The operation `p` waits on an empty buffer, and neither a byte nor a reset is to come. -/
structure State.WaitsOnEmpty (p : Pend) (s : State) : Prop where
  sync : s.sync ≠ .run
  empty : s.empty = true
  pend : s.pend = p
  quiet : ∀ e ∈ s.inputs, e.pushed = none ∧ e ≠ .reset

/-- Such a wait goes on, unanswered: only data lets a re-check answer, and only a PUSH brings data. -/
theorem State.WaitsOnEmpty.step {p : Pend} {s t : State} (h : s.WaitsOnEmpty p) (hst : step s = .next t) :
    t.WaitsOnEmpty p ∧ ∀ w, t.resp ≠ some ⟨.consumer, w⟩ := by
  have mv := step_waitMove hst h.sync fun hin => (h.quiet _ (List.mem_of_head? hin)).2 rfl
  obtain ⟨hd, -⟩ | still := mv.answered_or_stillWaits h.sync
  · cases h.empty.symm.trans hd
  · have hempty : t.empty = true := by
      obtain he | ⟨-, e, b, hin, hp⟩ := mv.empty_eq still.sync
      · exact he.trans h.empty
      · cases (h.quiet e (List.mem_of_head? hin)).1.symm.trans hp
    have hquiet : ∀ e ∈ t.inputs, e.pushed = none ∧ e ≠ .reset := fun e he =>
      h.quiet e (List.mem_of_mem_tail ((step_surroundings hst).2 ▸ he))
    exact ⟨⟨still.sync, hempty, still.pend.trans h.pend, hquiet⟩, still.unanswered⟩

/-- Settles O39: every step of the run keeps `WaitsOnEmpty`, and answers the consumer nothing. -/
theorem aWaitWithoutDataNeverEnds : Obligations.AWaitWithoutDataNeverEnds := by
  intro n s t _ hs he hquiet hrun
  have h : s.WaitsOnEmpty s.pend := ⟨hs, he, rfl, hquiet⟩
  cases n with
  | zero => cases hrun; exact ⟨hs, he, rfl, absurd rfl⟩
  | succ n =>
    obtain ⟨u, hu, hrun⟩ := step_of_run_succ hrun
    obtain ⟨hw, hresp⟩ := run_induction (P := fun v => v.WaitsOnEmpty s.pend ∧ ∀ w, v.resp ≠ some ⟨.consumer, w⟩)
      (fun _ _ hv hst => hv.1.step hst) (h.step hu) hrun
    exact ⟨hw.sync, hw.empty, hw.pend, fun _ => hresp⟩

/-! ## The lost wakeup (rules R79, R122) -/

/-- With nothing scheduled a run changes the response alone (notes/assumptions/3.md). -/
theorem run_idle {s : State} (h : s.Ready) (n : Nat) :
    ∃ r, Host.Core.run Sys2Proof.core n (s.setInputs []) = .next ((s.setInputs []).setResp r) := by
  induction n generalizing s with
  | zero => exact ⟨s.resp, rfl⟩
  | succ n ih =>
    have hidle : step (s.setInputs []) = .next (s.silent.setInputs []) := idleStep_ready (h.setInputs [])
    obtain ⟨r, hr⟩ := ih (s := s.silent) (h.congr rfl rfl rfl)
    exact ⟨r, (run_succ_of_step hidle n).trans hr⟩

/-- A sleep on data ends with an interrupt and a re-check (rules R82, R122). -/
theorem run_irqx_recheck_data {s : State} (h : s.Inv) (hs : s.sync = .sleep) (he : s.empty = false) :
    ∃ u w, Host.Core.run Sys2Proof.core 2 (s.setInputs [.irqx, .recheck]) = .next u ∧ u.sync = .run ∧
      u.resp = some ⟨.consumer, w⟩ := by
  have hirqx : step (s.setInputs [.irqx, .recheck]) = .next (s.setInputs [.recheck]).silent.wake :=
    deliver_irqx (h.toReady.setInputs _)
  have hv : (s.setInputs []).silent.wake.Inv := (h.setInputs []).silent.wake
  have hwoken : (s.setInputs []).silent.wake.sync = .woken := congrArg Sync.wake hs
  obtain ⟨u, hu⟩ := deliver_of_admitted hv (e := .recheck) hwoken
  have hrecheck : step (s.setInputs [.recheck]).silent.wake = .next u := hu
  have mv := (deliver_next hu).2.waitMove hv.toReady (by rw [hwoken]; nofun) nofun
  obtain ⟨ht, w, hr⟩ := mv.of_recheck he
  exact ⟨u, w, (run_succ_of_step hirqx 1).trans (run_succ_of_step hrecheck 0), ht, hr⟩

/-- Settles O41: the PUSH leaves PRESLEEP as it is, (sleep) does not look at the buffer, and the idle steps and the
rescue are `run_idle` and `run_irqx_recheck_data`. -/
theorem aByteBeforeSleepEntryDoesNotStopTheSleep : Obligations.AByteBeforeSleepEntryDoesNotStopTheSleep := by
  intro s b rest h hs hx
  have hi := h.setInputs (.sleep :: rest)
  obtain ⟨u, hu, heard⟩ := exec_push_heard hi.toReady hx b
  have hpush : step (s.facing (.rx b) (.sleep :: rest)) = .next u := (deliver_rx b _).trans hu
  have hin : u.inputs = .sleep :: rest := (step_surroundings hpush).2
  have hui : u.Inv := everyStepKeepsTheInvariant _ u (h.setInputs _) hpush
  have hpre : u.sync = .presleep := heard.sync.trans (congrArg Sync.wake hs)
  have hsleep : step (u.facing .sleep rest) = .next (((u.setInputs rest).setSync .sleep).silent) :=
    (deliver_sleep (hui.toReady.setInputs rest)).trans (if_pos hpre)
  have hfacing : u.facing .sleep rest = u := by rw [State.facing, ← hin]; rfl
  have hti := everyStepKeepsTheInvariant _ _ (hui.setInputs _) hsleep
  rw [hfacing] at hsleep
  refine ⟨_, (run_succ_of_step hpush 1).trans (run_succ_of_step hsleep 0), rfl, heard.empty, heard.pend, rfl,
    fun n => ?_, run_irqx_recheck_data hti rfl heard.empty⟩
  obtain ⟨r, hr⟩ := run_idle hti.toReady n
  exact ⟨_, hr, rfl, heard.empty⟩

/-! ## Infinite runs (rules R113, R129) -/

section Infinite
variable {states : Nat → State} {moves : Nat → Option Event}

theorem AgentRun.ready (h : AgentRun states moves) (n : Nat) : (states n).Ready :=
  (step_next (h.follows n)).1.congr rfl rfl rfl

theorem AgentRun.cfg (h : AgentRun states moves) (n : Nat) : (states (n + 1)).cfg = (states n).cfg :=
  (step_surroundings (h.follows n)).1

theorem AgentRun.inv (h : AgentRun states moves) {n : Nat} (hi : (states n).Inv) : (states (n + 1)).Inv :=
  everyStepKeepsTheInvariant _ _ (hi.setInputs _) (h.follows n)

/-- At each point of a wait at which no reset comes, the move is one of `WaitMove`. -/
theorem AgentRun.waitMove (h : AgentRun states moves) {n : Nat} (hs : (states n).sync ≠ .run)
    (hreset : moves n ≠ some .reset) : WaitMove ((states n).setInputs []) (moves n) (states (n + 1)) := by
  have hst := h.follows n
  generalize moves n = o at hst hreset ⊢
  cases o with
  | none => exact step_waitMove hst hs hreset
  | some e => exact step_waitMove hst hs hreset

/-- A fair consumer takes `(sleep)` or `(recheck)` once it is enabled, and it stays enabled until then, unless a reset
comes (rule R113). -/
theorem WeaklyFair.takes_own_step (hfair : WeaklyFair states moves) (hrun : AgentRun states moves) {c : Event}
    (hc : c = .sleep ∨ c = .recheck) {n : Nat} (hn : c.Enabled (states n)) :
    ∃ m, n ≤ m ∧ (∀ k, n ≤ k → k ≤ m → c.Enabled (states k)) ∧ (moves m = some c ∨ moves m = some .reset) := by
  by_contra hno
  have hupto : ∀ m, n ≤ m → ∀ k, n ≤ k → k ≤ m → c.Enabled (states k) := by
    intro m hm
    induction m, hm using Nat.le_induction with
    | base => exact fun k h1 h2 => le_antisymm h1 h2 ▸ hn
    | succ m hm ih =>
      intro k h1 h2
      obtain h2 | rfl := Nat.le_succ_iff.1 h2
      · exact ih k h1 h2
      · have hen : c.Enabled (states m) := ih m hm le_rfl
        have hmoves := fun h => hno ⟨m, hm, ih, h⟩
        have hs : (states m).sync ≠ .run := by
          obtain rfl | rfl := hc <;> exact fun h => nomatch h.symm.trans hen
        exact (hrun.waitMove hs (hmoves ∘ .inr)).keeps_enabled hc ((Event.enabled_setInputs _ _ c).2 hen)
          (hmoves ∘ .inl)
  obtain ⟨m, hm, htaken⟩ := hfair c hc n fun m hm => hupto m hm m hm le_rfl
  exact hno ⟨m, hm, hupto m hm, .inl htaken⟩

/-! ## A wait that would never end -/

/-- A fair run with receive on and no reset, in which the wait in progress at point `n` never ends. -/
structure EndlessWait (states : Nat → State) (moves : Nat → Option Event) (n : Nat) : Prop where
  run : AgentRun states moves
  fair : WeaklyFair states moves
  noReset : ∀ m, n ≤ m → moves m ≠ some .reset
  inv : ∀ m, n ≤ m → (states m).Inv
  waits : ∀ m, n ≤ m → (states m).sync ≠ .run
  receives : ∀ m, n ≤ m → (states m).rxEn = true

/-- A wait that is not answered never ends. -/
theorem endlessWait_of_never_answered {n : Nat} (hrun : AgentRun states moves) (hfair : WeaklyFair states moves)
    (hi : (states n).Inv) (hs : (states n).sync ≠ .run) (hx : (states n).rxEn = true)
    (hreset : ∀ m, n ≤ m → moves m ≠ some .reset)
    (hnever : ∀ m w, n ≤ m → (states (m + 1)).resp = some ⟨.consumer, w⟩ → (states (m + 1)).sync ≠ .run) :
    EndlessWait states moves n := by
  have hall : ∀ m, n ≤ m → (states m).Inv ∧ (states m).sync ≠ .run ∧ (states m).rxEn = true := by
    intro m hm
    induction m, hm using Nat.le_induction with
    | base => exact ⟨hi, hs, hx⟩
    | succ m hm ih =>
      obtain ⟨hi, hs, hx⟩ := ih
      obtain ⟨-, ht, w, hr⟩ | still := (hrun.waitMove hs (hreset m hm)).answered_or_stillWaits hs
      · exact absurd ht (hnever m w hm hr)
      · exact ⟨hrun.inv hi, still.sync, (congrArg (BitVec.getLsbD · 0) still.ctrl).trans hx⟩
  exact ⟨hrun, hfair, hreset, fun m hm => (hall m hm).1, fun m hm => (hall m hm).2.1, fun m hm => (hall m hm).2.2⟩

section Endless
variable {n : Nat} (h : EndlessWait states moves n)
include h

theorem EndlessWait.mono {m : Nat} (hm : n ≤ m) : EndlessWait states moves m :=
  ⟨h.run, h.fair, fun k hk => h.noReset k (hm.trans hk), fun k hk => h.inv k (hm.trans hk),
    fun k hk => h.waits k (hm.trans hk), fun k hk => h.receives k (hm.trans hk)⟩

theorem EndlessWait.move {m : Nat} (hm : n ≤ m) :
    WaitMove ((states m).setInputs []) (moves m) (states (m + 1)) :=
  h.run.waitMove (h.waits m hm) (h.noReset m hm)

theorem EndlessWait.pushHeard {m : Nat} (hm : n ≤ m) {e : Event} {b : Byte} (he : moves m = some e)
    (hp : e.pushed = some b) : PushHeard (states m) (states (m + 1)) := by
  have mv := h.move hm
  rw [he] at mv
  have heard := mv.pushHeard (h.receives m hm) hp
  exact ⟨heard.empty, heard.sync, heard.pend, heard.ctrl, heard.resp⟩

theorem EndlessWait.cfg_eq {m : Nat} (hm : n ≤ m) : (states m).cfg = (states n).cfg := by
  induction m, hm using Nat.le_induction with
  | base => rfl
  | succ m _ ih => exact (h.run.cfg m).trans ih

/-- Data stays in the buffer, since only the answer would take it out. -/
theorem EndlessWait.data_stays (hd : (states n).empty = false) {m : Nat} (hm : n ≤ m) : (states m).empty = false := by
  induction m, hm using Nat.le_induction with
  | base => exact hd
  | succ m hm ih =>
    obtain he | ⟨he, -⟩ := (h.move hm).empty_eq (h.waits (m + 1) (by omega))
    · exact he.trans ih
    · exact he

/-- With data in the buffer the consumer is not awake, for its re-check would be taken and would answer. -/
theorem EndlessWait.not_woken (hd : (states n).empty = false) : (states n).sync ≠ .woken := by
  intro hw
  obtain ⟨m, hm, -, htaken⟩ := h.fair.takes_own_step h.run (c := .recheck) (.inr rfl) hw
  have mv := h.move hm
  rw [htaken.resolve_right (h.noReset m hm)] at mv
  obtain ⟨hrun, -⟩ := mv.of_recheck (h.data_stays hd hm)
  exact h.waits (m + 1) (by omega) hrun

/-- With data in the buffer SLEEP is never left, as no wake event may come. -/
theorem EndlessWait.sleep_stays (hd : (states n).empty = false) (hs : (states n).sync = .sleep) {m : Nat}
    (hm : n ≤ m) : (states m).sync = .sleep := by
  induction m, hm using Nat.le_induction with
  | base => exact hs
  | succ m hm ih =>
    obtain hsleep | ⟨hwoken, -⟩ := (h.move hm).of_sleep ih
    · exact hsleep
    · have hm' : n ≤ m + 1 := by omega
      exact absurd hwoken ((h.mono hm').not_woken (h.data_stays hd hm'))

/-- With data in the buffer the consumer sleeps at some point: where it stands in PRESLEEP it takes `(sleep)`. -/
theorem EndlessWait.sleeps (hd : (states n).empty = false) : ∃ m, n ≤ m ∧ (states m).sync = .sleep := by
  cases hs : (states n).sync with
  | run => exact absurd hs (h.waits n le_rfl)
  | woken => exact absurd hs (h.not_woken hd)
  | sleep => exact ⟨n, le_rfl, hs⟩
  | presleep =>
    obtain ⟨m, hm, -, htaken⟩ := h.fair.takes_own_step h.run (c := .sleep) (.inl rfl) hs
    refine ⟨m + 1, by omega, ?_⟩
    have mv := h.move hm
    rw [htaken.resolve_right (h.noReset m hm)] at mv
    exact mv.enters_sleep

/-- Where check and sleep are one step, an endless wait has no data: the consumer would be awake. -/
theorem EndlessWait.empty_of_atomic (ha : (states n).cfg.atomicSleep = true) : (states n).empty = true := by
  refine eq_true_of_ne_false fun hd => ?_
  have hi := h.inv n le_rfl
  cases hs : (states n).sync with
  | run => exact h.waits n le_rfl hs
  | presleep => cases (hi.twoSteps hs).symm.trans ha
  | sleep => cases (hi.asleep ha hs).symm.trans hd
  | woken => exact h.not_woken hd hs

/-- In an endless wait bytes do not keep coming: the first leaves data, and one that finds the consumer asleep on data
wakes it. -/
theorem EndlessWait.pushes_end (hbytes : ∀ k, ∃ m e b, k ≤ m ∧ moves m = some e ∧ e.pushed = some b) : False := by
  obtain ⟨m, e, b, hm, he, hp⟩ := hbytes n
  have hd := (h.pushHeard hm he hp).empty
  have h1 := h.mono (show n ≤ m + 1 by omega)
  obtain ⟨k, hk, hs⟩ := h1.sleeps hd
  have h2 := h1.mono hk
  have hdk := h1.data_stays hd hk
  obtain ⟨j, e', b', hj, he', hp'⟩ := hbytes k
  have hwoken : (states (j + 1)).sync = .woken :=
    (h2.pushHeard hj he' hp').sync.trans (congrArg Sync.wake (h2.sleep_stays hdk hs hj))
  cases (h2.sleep_stays hdk hs (show k ≤ j + 1 by omega)).symm.trans hwoken

end Endless

end Infinite

/-- Settles O57: a wait that is never answered is an `EndlessWait`, which has no data where check and sleep are one
step, and in which bytes do not keep coming. -/
theorem aFairWaitEndsWhenBytesCome : Obligations.AFairWaitEndsWhenBytesCome := by
  intro states moves n hrun hfair hi hs hx hreset hbytes
  by_contra hno
  have h : EndlessWait states moves n := endlessWait_of_never_answered hrun hfair hi hs hx hreset
    fun m w hm hr ht => hno ⟨m, w, hm, hr, ht⟩
  obtain ⟨ha, hd | ⟨m, e, b, hm, he, hp⟩⟩ | hbytes := hbytes
  · cases (h.empty_of_atomic ha).symm.trans hd
  · have hm' : n ≤ m + 1 := by omega
    have hempty := (h.mono hm').empty_of_atomic (by rw [h.cfg_eq hm', ha])
    cases hempty.symm.trans (h.pushHeard hm he hp).empty
  · exact h.pushes_end hbytes

/-! ## A sleep that never ends (rules R88, R129) -/

/-- The states of a run from `s` in which nobody ever moves. -/
def idleStates (s : State) : Nat → State
  | 0 => s
  | _ + 1 => (s.setInputs []).silent

/-- Nobody ever moves. -/
def noMoves : Nat → Option Event := fun _ => none

theorem idleStates_fields (s : State) (n : Nat) : (idleStates s n).sync = s.sync ∧ (idleStates s n).pend = s.pend ∧
    SameBuffer s (idleStates s n) := by
  cases n with
  | zero | succ => exact ⟨rfl, rfl, fun _ => rfl, rfl, rfl, rfl⟩

theorem agentRun_idle {s : State} (h : s.Ready) : AgentRun (idleStates s) noMoves where
  enabled := nofun
  follows n := by
    cases n with
    | zero => exact idleStep_ready (h.setInputs [])
    | succ n => exact idleStep_ready (s := (s.setInputs []).silent) (h.congr rfl rfl rfl)

/-- Settles O58: nobody ever moves, and in SLEEP the consumer has no step of its own that fairness could oblige. -/
theorem aFairRunMaySleepForEver : Obligations.AFairRunMaySleepForEver := by
  intro s h hs
  have hsleep (n : Nat) : (idleStates s n).sync = .sleep := (idleStates_fields s n).1.trans hs
  refine ⟨idleStates s, noMoves, agentRun_idle h, fun c hc n hall => ?_, rfl, fun n => ?_⟩
  · have hen := hall n le_rfl
    obtain rfl | rfl := hc <;> cases (hsleep n).symm.trans hen
  · obtain ⟨-, hpend, buffer⟩ := idleStates_fields s n
    exact ⟨hsleep n, hpend, buffer⟩

end Sys2Proof.Machine
end

section
/-! PROOFS. CTRL on the buffer, the conflicting pair and CLOSE: the statements of `43_control.md` beside INIT and CTRL in
their three forms. -/

namespace Sys2Proof.Machine

/-- A consumer operation answers a next state only in a quiescent one (rule R76). -/
theorem quiescent_of_exec_next {s t : State} {i : Instr} (hi : i.port = .consumer) (h : exec i s = .next t) :
    s.Quiescent := by
  obtain ⟨k, hk⟩ := exec_eq_accepted i
  rw [hk] at h
  obtain ⟨hready, hrun, -⟩ := accepted_next h
  exact ⟨hready, hrun hi⟩

/-- Settles O44: CTRL writes BLOCK (`exec_ctrl`) or, with BLK = 11, nothing (`exec_ctrl_both`), so DATA, HEAD and TAIL,
and with them the unread bytes, are those of `s`, and RX_EN is another bit than BLOCK. -/
theorem ctrlKeepsTheUnreadBytes : Obligations.CtrlKeepsTheUnreadBytes := by
  intro s t blk h
  have hq := quiescent_of_exec_next rfl h
  cases hb : ctrlBlock s.block blk with
  | some b =>
    cases (exec_ctrl hq hb).symm.trans h
    exact ⟨rfl, rfl, fun _ => rfl, ctrlSetBlock_rxEn s.ctrl b, contents_congr rfl rfl rfl rfl⟩
  | none =>
    obtain rfl := ctrlBlock_eq_none hb
    cases (exec_ctrl_both hq).symm.trans h
    exact ⟨rfl, rfl, fun _ => rfl, rfl, contents_congr rfl rfl rfl rfl⟩

/-- Settles O45: with BLK = 11 both operations are the INVALID response alone (`exec_init_both`, `exec_ctrl_both`). -/
theorem conflictingPairIsInvalid : Obligations.ConflictingPairIsInvalid := by
  intro s i hi h
  have hexec : exec i s = .next (s.respond .consumer .invalid 0x00#8) := by
    obtain rfl | rfl := hi
    · exact exec_init_both h
    · exact exec_ctrl_both h
  exact ⟨_, hexec, rfl, ⟨fun _ => rfl, rfl, rfl, rfl⟩, ⟨rfl, rfl⟩, ⟨rfl, rfl⟩⟩

/-- Settles O46: CLOSE is the OK response alone (`exec_close`). -/
theorem closeChangesNothing : Obligations.CloseChangesNothing := fun _ h =>
  ⟨_, exec_close h, rfl, ⟨fun _ => rfl, rfl, rfl, rfl⟩, ⟨rfl, rfl⟩, ⟨rfl, rfl⟩, rfl⟩

end Sys2Proof.Machine
end

section
/-! PROOFS. The responses other than OK, what they leave and what causes them, and a fair consumer's own step: the
statements of `60_exceptions.md`. -/

namespace Sys2Proof.Machine

/-! ## Responses other than OK (rules R97, R98) -/

/-- A response other than OK is not one with code OK. -/
theorem ne_ok_response {r : Response} (hn : isOk r.word = false) (p : Port) (d : Byte) :
    some ⟨p, responseWord .ok d⟩ ≠ some r := by
  rintro ⟨⟩
  cases (isOk_responseWord .ok d).symm.trans hn

/-- A word that decodes to one of two operations issues that one. -/
theorem issues_or_of_decode {p : Port} {w : Word} {i j k : Instr} (hd : decode p w = .instr i)
    (hi : i = j ∨ i = k) : (Event.word p w).issues j ∨ (Event.word p w).issues k := by
  obtain rfl | rfl := hi
  · exact .inl (.of_decode hd)
  · exact .inr (.of_decode hd)

section NonOk
variable {s t : State} {e : Event} {r : Response}

/-- A transition that answers other than OK writes the response and nothing else, but for the wake event of a DROPPED
PUSH (rules R68, R97). -/
theorem Taken.nonOk_writes (tk : Taken s e t) (hr : t.resp = some r) (hn : isOk r.word = false) :
    t = s.setResp (some r) ∨
    (r = ⟨.producer, 0x2000#16⟩ ∧ s.rxEn = true ∧ t = (s.setResp (some r)).wake) := by
  cases tk with
  | illegal | rxOff | popEmpty | wouldBlock | invalid => cases hr; exact .inl rfl
  | dropped _ _ _ hx => cases hr; exact .inr ⟨rfl, hx, rfl⟩
  | stored | popByte | isempty | status | waitOk | getByte | init | ctrl | close | recheckWait | recheckGet =>
    exact absurd hr (ne_ok_response hn _ _)
  | fallAsleep | irqx | reset | sleep | sleepAgain => cases hr

/-- Rule R98's table: each transition that answers other than OK is one of its six rows. -/
theorem Taken.nonOk_cause (tk : Taken s e t) (hr : t.resp = some r) (hn : isOk r.word = false) :
    (r = ⟨.consumer, 0x1000#16⟩ ∧ e.issues .pop ∧ s.head = s.tail) ∨
    (r = ⟨.producer, 0x2000#16⟩ ∧ (∃ b, e.issues (.push b)) ∧ nextIndex s.cfg.capacity s.head = s.tail ∧
      s.rxEn = true) ∨
    (r = ⟨.consumer, 0x3000#16⟩ ∧ (e.issues .wait ∨ e.issues .get) ∧ s.head = s.tail ∧ s.block = false) ∨
    (r = ⟨.consumer, 0x4000#16⟩ ∧ (e.issues (.init .both) ∨ e.issues (.ctrl .both))) ∨
    (∃ p w why, r = ⟨p, 0x5000#16⟩ ∧ e = .word p w ∧ decode p w = .illegal why) ∨
    (r = ⟨.producer, 0x6000#16⟩ ∧ (∃ b, e.issues (.push b)) ∧ s.rxEn = false) := by
  cases tk with
  | popEmpty w hd _ he => cases hr; exact .inl ⟨rfl, .of_decode hd, eq_of_beq he⟩
  | dropped _ b hb hx hf => cases hr; exact .inr (.inl ⟨rfl, ⟨b, hb⟩, eq_of_beq hf, hx⟩)
  | wouldBlock w i hi hd _ he hk =>
    cases hr
    exact .inr (.inr (.inl ⟨rfl, issues_or_of_decode hd hi, eq_of_beq he, hk⟩))
  | invalid w i hi hd => cases hr; exact .inr (.inr (.inr (.inl ⟨rfl, issues_or_of_decode hd hi⟩)))
  | illegal p w why hd => cases hr; exact .inr (.inr (.inr (.inr (.inl ⟨p, w, why, rfl, rfl, hd⟩))))
  | rxOff _ b hb hx => cases hr; exact .inr (.inr (.inr (.inr (.inr ⟨rfl, ⟨b, hb⟩, hx⟩))))
  | stored | popByte | isempty | status | waitOk | getByte | init | ctrl | close | recheckWait | recheckGet =>
    exact absurd hr (ne_ok_response hn _ _)
  | fallAsleep | irqx | reset | sleep | sleepAgain => cases hr

/-- Neither a response nor a wake event touches the buffer state. -/
theorem sameBuffer_of_nonOk {rest : List Event} (hst : step (s.facing e rest) = .next t) (hr : t.resp = some r)
    (hn : isOk r.word = false) : SameBuffer s t := by
  obtain rfl | ⟨-, -, rfl⟩ := (step_facing_next hst).2.nonOk_writes hr hn
  · exact ⟨fun _ => rfl, rfl, rfl, rfl⟩
  · exact ⟨fun _ => rfl, rfl, rfl, rfl⟩

end NonOk

/-- Settles O48: only the response is written, and with a DROPPED PUSH also SYNC, which the wake event moves from SLEEP
to WOKEN or not at all. -/
theorem nonOkResponseChangesNoBufferState : Obligations.NonOkResponseChangesNoBufferState := by
  intro s t e rest r hst hr hn
  refine ⟨sameBuffer_of_nonOk hst hr hn, ?_⟩
  obtain rfl | ⟨hdropped, hx, rfl⟩ := (step_facing_next hst).2.nonOk_writes hr hn
  · exact ⟨rfl, .inl rfl⟩
  · refine ⟨rfl, ?_⟩
    by_cases hs : s.sync = .sleep
    · exact .inr ⟨hdropped, hx, hs, congrArg Sync.wake hs⟩
    · exact .inl (s.sync.wake_eq.trans (if_neg hs))

/-- Settles O49: the transitions that answer other than OK, read off `Taken`. -/
theorem everyNonOkResponseHasItsCause : Obligations.EveryNonOkResponseHasItsCause :=
  fun _ _ _ _ _ hst hr hn => ⟨sameBuffer_of_nonOk hst hr hn, (step_facing_next hst).2.nonOk_cause hr hn⟩

/-! ## The consumer's own steps in a fair run (rule R113) -/

/-- Settles O56: `(sleep)` is enabled in PRESLEEP alone and `(recheck)` in WOKEN alone, so each half is
`WeaklyFair.takes_own_step` for that step. -/
theorem aFairConsumerTakesItsOwnStep : Obligations.AFairConsumerTakesItsOwnStep :=
  fun _ _ hrun hfair _ => ⟨fun hs => hfair.takes_own_step hrun (c := .sleep) (.inl rfl) hs,
    fun hs => hfair.takes_own_step hrun (c := .recheck) (.inr rfl) hs⟩

end Sys2Proof.Machine
end

section
/-! PROOFS. A reset, a step in which nobody moves, and the block before INIT: the statements of
`70_reset_and_hazards.md`. -/

namespace Sys2Proof.Machine

/-! ## Reset, and nothing scheduled (rules R115, R116) -/

/-- Settles O12: RESET answers the power-on state from every ready one, waits included (`deliver_reset`). -/
theorem resetEndsEverythingSilently : Obligations.ResetEndsEverythingSilently := fun s rest h =>
  ⟨_, deliver_reset (h.setInputs rest), rfl, rfl, fun _ => rfl, State.powerOn_rxEn s.cfg, State.powerOn_block s.cfg,
    rfl, rfl, rfl, rfl, rfl, rfl⟩

/-- With an empty schedule a step is the idle one. -/
theorem step_of_inputs_nil {s : State} (h : s.Ready) (hin : s.inputs = []) : step s = .next s.silent := by
  rw [step, hin]
  exact idleStep_ready h

/-- Settles O55: the idle step forgets the last response and writes nothing else. -/
theorem nothingMovesWithoutASchedule : Obligations.NothingMovesWithoutASchedule := fun _ h hin =>
  ⟨_, step_of_inputs_nil h hin, rfl, ⟨fun _ => rfl, rfl, rfl, rfl⟩, ⟨rfl, rfl⟩, ⟨rfl, rfl⟩⟩

/-! ## Before INIT (rules R117, R119) -/

/-- Until INIT nothing is unread: HEAD and TAIL stand where reset left them. -/
theorem State.Inv.empty_of_rxOff {s : State} (h : s.Inv) (hx : s.rxEn = false) : s.empty = true := by
  obtain ⟨hhead, htail, -⟩ := h.beforeInit hx
  exact beq_iff_eq.2 (hhead.trans htail.symm)

/-- The operation `p` waits before INIT, and no reset is to come. -/
structure State.WaitsBeforeInit (p : Pend) (s : State) : Prop where
  inv : s.Inv
  rxOff : s.rxEn = false
  sync : s.sync ≠ .run
  pend : s.pend = p
  noReset : ∀ e ∈ s.inputs, e ≠ .reset

/-- Such a wait goes on: there is never data for a re-check to answer, and no move of a wait writes RX_EN. -/
theorem State.WaitsBeforeInit.step {p : Pend} {s t : State} (h : s.WaitsBeforeInit p) (hst : step s = .next t) :
    t.WaitsBeforeInit p := by
  have mv := step_waitMove hst h.sync fun hin => h.noReset _ (List.mem_of_head? hin) rfl
  obtain ⟨hd, -⟩ | still := mv.answered_or_stillWaits h.sync
  · cases (h.inv.empty_of_rxOff h.rxOff).symm.trans hd
  · exact {
      inv := everyStepKeepsTheInvariant s t h.inv hst
      rxOff := (congrArg (BitVec.getLsbD · 0) still.ctrl).trans h.rxOff
      sync := still.sync
      pend := still.pend.trans h.pend
      noReset := fun e he => h.noReset e (List.mem_of_mem_tail ((step_surroundings hst).2 ▸ he)) }

/-- Settles O40: before INIT the buffer is empty (`State.Inv.empty_of_rxOff`), so each operation takes its empty case,
and every step of a run keeps `WaitsBeforeInit`. -/
theorem beforeInitNothingIsReceived : Obligations.BeforeInitNothingIsReceived := by
  refine ⟨fun s h hs hx => ?_, fun n s t h hx hs hreset hrun => ?_⟩
  · have hq : s.Quiescent := ⟨h.toReady, hs⟩
    have he := h.empty_of_rxOff hx
    refine ⟨?_, ?_, fun hk => ⟨?_, ?_⟩, fun hk => ⟨?_, ?_⟩⟩
    · obtain ⟨t, ht, hresp, -⟩ := popOfAnEmptyBufferAnswersEmpty s hq he
      exact ⟨t, ht, hresp⟩
    · obtain ⟨t, ht, hresp, -⟩ := isemptyAnswersTheFlag s hq
      rw [if_pos (eq_of_beq he)] at hresp
      exact ⟨t, ht, hresp⟩
    · exact ⟨_, (exec_wait hq).trans (check_wouldBlock .wait he hk), rfl⟩
    · exact ⟨_, (exec_get hq).trans (check_wouldBlock .get he hk), rfl⟩
    · exact ⟨_, (exec_wait hq).trans (check_sleeps .wait he hk), sleepState_ne_run _, hx⟩
    · exact ⟨_, (exec_get hq).trans (check_sleeps .get he hk), sleepState_ne_run _, hx⟩
  · have hw : t.WaitsBeforeInit s.pend :=
      run_induction (fun _ _ hu hst => hu.step hst) ⟨h, hx, hs, rfl, hreset⟩ hrun
    exact ⟨hw.rxOff, hw.sync, hw.inv.empty_of_rxOff hw.rxOff, hw.pend⟩

end Sys2Proof.Machine
end
